-- ==== Sys2Proof/Word.lean ====
section
/-! DEFINITION. The word type of the engine (00_scope.md R7: `XLEN` = `ALEN` = 16) and the console byte (R3). -/

namespace Sys2Proof

/-- A 16-bit word: a register's contents, a memory word, a word address (R7, R40). `+` and `-` wrap modulo 2^16 (R11). -/
abbrev Word := BitVec 16

/-- A console byte (R3), and the trap vector's 8-bit code (R64). -/
abbrev Byte := BitVec 8

end Sys2Proof
end

