-- ==== Sys2Proof/Syntax.lean ====
section
/-! DEFINITION. The instructions: one constructor per row of spec/opcode_table.json, its operands the fields of
30_encoding.md R63. A bit the spec calls ignored (R67) is no operand. -/

namespace Sys2Proof

/-- The number of a general-purpose register R0-R7: a register field is three bits (R12, R62). -/
abbrev Reg := Fin 8

/-- The instruction forms (R70), in the table's order. -/
inductive Instr where
  /-- ADD, register mode (R100). -/
  | add (dr sr1 sr2 : Reg)
  /-- ADDI: ADD, immediate mode (R100). -/
  | addi (dr sr1 : Reg) (imm5 : BitVec 5)
  /-- AND, register mode (R101). -/
  | and (dr sr1 sr2 : Reg)
  /-- ANDI: AND, immediate mode (R101). -/
  | andi (dr sr1 : Reg) (imm5 : BitVec 5)
  /-- NOT (R102). -/
  | not (dr sr : Reg)
  /-- BR (R110); bit 2 of `nzp` is n (word bit 11), bit 1 is z (bit 10), bit 0 is p (bit 9). -/
  | br (nzp : BitVec 3) (off9 : BitVec 9)
  /-- JMP; RET is JMP R7 (R111). -/
  | jmp (base : Reg)
  /-- JSR (R112). -/
  | jsr (off11 : BitVec 11)
  /-- JSRR (R113). -/
  | jsrr (base : Reg)
  /-- LD (R120). -/
  | ld (dr : Reg) (off9 : BitVec 9)
  /-- LDI (R121). -/
  | ldi (dr : Reg) (off9 : BitVec 9)
  /-- LDR (R122). -/
  | ldr (dr base : Reg) (off6 : BitVec 6)
  /-- LEA (R123). -/
  | lea (dr : Reg) (off9 : BitVec 9)
  /-- ST (R130). -/
  | st (sr : Reg) (off9 : BitVec 9)
  /-- STI (R131). -/
  | sti (sr : Reg) (off9 : BitVec 9)
  /-- STR (R132). -/
  | str (sr base : Reg) (off6 : BitVec 6)
  /-- TRAP with a vector that has no row of its own (R140); see `Instr.wellFormed`. -/
  | trap (vector : Byte)
  /-- GETC: TRAP x20 (R142). -/
  | getc
  /-- OUT: TRAP x21 (R143). -/
  | out
  /-- PUTS: TRAP x22 (R144). -/
  | puts
  /-- IN: TRAP x23 (R145). -/
  | inChar
  /-- PUTSP: TRAP x24 (R146). -/
  | putsp
  /-- HALT: TRAP x25 (R147). -/
  | halt
  /-- RTI (R160), a reserved opcode; `low` is the word's bits 11:0, kept because the fault records the word (R171). -/
  | rti (low : BitVec 12)
  /-- RES (R161), a reserved opcode; `low` as for RTI. -/
  | res (low : BitVec 12)
deriving DecidableEq, Repr

/-- The explicit invalid case of the decoder (R70): the two reserved opcodes. -/
def Instr.isReserved : Instr → Bool
  | .rti _ | .res _ => true
  | .add .. | .addi .. | .and .. | .andi .. | .not .. | .br .. | .jmp .. | .jsr .. | .jsrr .. | .ld .. | .ldi .. | .ldr ..
  | .lea .. | .st .. | .sti .. | .str .. | .trap .. | .getc | .out | .puts | .inChar | .putsp | .halt => false

end Sys2Proof
end

