-- ==== Sys2Proof/WellFormed.lean ====
section
/-! DEFINITION. Which terms of Instr are instructions: every operand's range is in its type, so one check is left. -/

namespace Sys2Proof

/-- The six trap vectors that select a service routine (R69, R140, C3). -/
def isServiceVector (v : Byte) : Bool := 0x20#8 ≤ v && v ≤ 0x25#8

/-- A TRAP whose vector selects a service routine is written as that routine's own row (GETC ... HALT), never as `trap`
(log 9); every other term is well formed. -/
def Instr.wellFormed : Instr → Bool
  | .trap v => !isServiceVector v
  | .add .. | .addi .. | .and .. | .andi .. | .not .. | .br .. | .jmp .. | .jsr .. | .jsrr .. | .ld .. | .ldi .. | .ldr ..
  | .lea .. | .st .. | .sti .. | .str .. | .getc | .out | .puts | .inChar | .putsp | .halt | .rti .. | .res .. => true

end Sys2Proof
end

