-- ==== Sys2Proof/Decode.lean ====
section
/-! DEFINITION. The decoder (30_encoding.md R60-R70), total on every word, and the encoder. The opcode numbers are R61's, the
fields R62's and R63's (DR at 11:9 and SR1 at 8:6, 90_conflicts.md C1). -/

namespace Sys2Proof

/-- `w[lo+len-1 : lo]` (R8). -/
def field (w : Word) (lo len : Nat) : BitVec len := w.extractLsb' lo len

/-- A 3-bit register field with its low bit at `lo` (R62). -/
def regField (w : Word) (lo : Nat) : Reg := (field w lo 3).toFin

/-- The TRAP row and its six service rows, by bits 7:0; bits 11:8 are ignored (R67, R69). -/
def decodeTrap (v : Byte) : Instr :=
  if v = 0x20 then .getc
  else if v = 0x21 then .out
  else if v = 0x22 then .puts
  else if v = 0x23 then .inChar
  else if v = 0x24 then .putsp
  else if v = 0x25 then .halt
  else .trap v

/-- Decoding (R70): selects by `w[15:12]` alone (R66), then by bit 5 (ADD, AND), bit 11 (JSR, JSRR) or bits 7:0 (TRAP).
It rejects no word: the two reserved opcodes decode to their own rows, whose meaning raises `InvalidOpcode`. -/
def decode (w : Word) : Instr :=
  match (field w 12 4).toNat with
  | 0x0 => .br (field w 9 3) (field w 0 9)
  | 0x1 =>
    if field w 5 1 = 1 then .addi (regField w 9) (regField w 6) (field w 0 5)
    else .add (regField w 9) (regField w 6) (regField w 0)
  | 0x2 => .ld (regField w 9) (field w 0 9)
  | 0x3 => .st (regField w 9) (field w 0 9)
  | 0x4 => if field w 11 1 = 1 then .jsr (field w 0 11) else .jsrr (regField w 6)
  | 0x5 =>
    if field w 5 1 = 1 then .andi (regField w 9) (regField w 6) (field w 0 5)
    else .and (regField w 9) (regField w 6) (regField w 0)
  | 0x6 => .ldr (regField w 9) (regField w 6) (field w 0 6)
  | 0x7 => .str (regField w 9) (regField w 6) (field w 0 6)
  | 0x8 => .rti (field w 0 12)
  | 0x9 => .not (regField w 9) (regField w 6)
  | 0xA => .ldi (regField w 9) (field w 0 9)
  | 0xB => .sti (regField w 9) (field w 0 9)
  | 0xC => .jmp (regField w 6)
  | 0xD => .res (field w 0 12)
  | 0xE => .lea (regField w 9) (field w 0 9)
  | _ => decodeTrap (field w 0 8)

/-- The three bits of a register field. -/
def regBits (r : Reg) : BitVec 3 := BitVec.ofFin r

/-- The word of an instruction, field by field from the formats of R63. An ignored bit is written as the LC-3 assembler
writes it (R67, R102; log 8): ones in NOT's bits 5:0, zeros elsewhere. -/
def encode : Instr → Word
  | .add dr sr1 sr2 => 0x1#4 ++ regBits dr ++ regBits sr1 ++ 0#1 ++ 0#2 ++ regBits sr2
  | .addi dr sr1 imm5 => 0x1#4 ++ regBits dr ++ regBits sr1 ++ 1#1 ++ imm5
  | .and dr sr1 sr2 => 0x5#4 ++ regBits dr ++ regBits sr1 ++ 0#1 ++ 0#2 ++ regBits sr2
  | .andi dr sr1 imm5 => 0x5#4 ++ regBits dr ++ regBits sr1 ++ 1#1 ++ imm5
  | .not dr sr => 0x9#4 ++ regBits dr ++ regBits sr ++ 0x3F#6
  | .br nzp off9 => 0x0#4 ++ nzp ++ off9
  | .jmp base => 0xC#4 ++ 0#3 ++ regBits base ++ 0#6
  | .jsr off11 => 0x4#4 ++ 1#1 ++ off11
  | .jsrr base => 0x4#4 ++ 0#1 ++ 0#2 ++ regBits base ++ 0#6
  | .ld dr off9 => 0x2#4 ++ regBits dr ++ off9
  | .ldi dr off9 => 0xA#4 ++ regBits dr ++ off9
  | .ldr dr base off6 => 0x6#4 ++ regBits dr ++ regBits base ++ off6
  | .lea dr off9 => 0xE#4 ++ regBits dr ++ off9
  | .st sr off9 => 0x3#4 ++ regBits sr ++ off9
  | .sti sr off9 => 0xB#4 ++ regBits sr ++ off9
  | .str sr base off6 => 0x7#4 ++ regBits sr ++ regBits base ++ off6
  | .trap v => 0xF#4 ++ 0#4 ++ v
  | .getc => 0xF#4 ++ 0#4 ++ 0x20#8
  | .out => 0xF#4 ++ 0#4 ++ 0x21#8
  | .puts => 0xF#4 ++ 0#4 ++ 0x22#8
  | .inChar => 0xF#4 ++ 0#4 ++ 0x23#8
  | .putsp => 0xF#4 ++ 0#4 ++ 0x24#8
  | .halt => 0xF#4 ++ 0#4 ++ 0x25#8
  | .rti low => 0x8#4 ++ low
  | .res low => 0xD#4 ++ low

/-- The instruction the decoder reads from a row's word, numbered as spec/opcode_table.json numbers its bits: every
instruction is one 16-bit word (R60), and bits above `nbits` are zero. The decoder refuses no word. -/
def decodeTableWord (nbits w : Nat) : Option Instr := some (decode (BitVec.ofNat 16 (w % 2 ^ nbits)))

end Sys2Proof
end

