-- ==== Sys2Proof/Machine/Bits.lean ====
section
/-! DEFINITION. Widening fields and taking bytes of words (00_scope.md R8-R10, 20_memory.md R49). -/

namespace Sys2Proof.Machine

/-- `sext_n` (R9): if bit n-1 is set, OR the field with ones above bit n-1; otherwise leave it unchanged. -/
def sext {n : Nat} (v : BitVec n) : Word :=
  if v.msb then v.setWidth 16 ||| (0xFFFF#16 <<< n) else v.setWidth 16

/-- `zext_16` (R10), of a console byte or a trap vector. -/
def zext (b : Byte) : Word := b.setWidth 16

/-- `w[7:0]` (R49b). -/
def loByte (w : Word) : Byte := w.extractLsb' 0 8

/-- `w[15:8]`. -/
def hiByte (w : Word) : Byte := w.extractLsb' 8 8

/-- A big-endian word of an image: `b0 * 256 + b1` (R191). -/
def wordOfBytes (b0 b1 : Byte) : Word := b0 ++ b1

end Sys2Proof.Machine
end

