-- ==== Sys2Proof/Config.lean ====
section
/-! DEFINITION. The implementation parameters of 00_scope.md R7 and the free values of the host oracle (60_exceptions.md
R183). The parameters the spec leaves open are held in State as one record (log 3), so that a statement about every state
is a statement about every value of them. -/

namespace Sys2Proof

/-- `EXIT_FAILURE_CODE` is "any non-zero integer" (R178): `positive n` is n + 1 and `negative n` is -(n + 1). -/
inductive FailureCode where
  | positive (n : Nat)
  | negative (n : Nat)
deriving DecidableEq, Repr, Inhabited

/-- The exit status it stands for. -/
def FailureCode.value : FailureCode → Int
  | .positive n => n + 1
  | .negative n => -(n + 1)

/-- The parameters of R7 that an implementation fixes; no step changes them. -/
structure Params where
  /-- `KBSR_ADDR` (R44, D5). -/
  kbsrAddr : Word
  /-- `KBDR_ADDR` (R44, D5); must differ from `kbsrAddr`, which is part of `State.Inv`. -/
  kbdrAddr : Word
  /-- `TRAP_LINKS_R7` (R141, D11). -/
  trapLinksR7 : Bool
  /-- `IN_PROMPT` (R149, D14). -/
  inPrompt : List Byte
  /-- `HALT_ANNOUNCE` (R149, D15). -/
  haltAnnounce : List Byte
  /-- `EXIT_FAILURE_CODE` (R178, D13). -/
  exitFailureCode : FailureCode
deriving DecidableEq, Repr

/-- The bytes of the IN prompt: OPEN (R149, N7, log 4). -/
opaque Config.inPrompt : List Byte

/-- The bytes of the HALT announcement: OPEN (R149, N7, log 4). -/
opaque Config.haltAnnounce : List Byte

/-- The exit status of a failed run: OPEN but for being non-zero (R178, N13, log 4). -/
opaque Config.exitFailureCode : FailureCode

/-- The host's n-th free answer to a poll (R183, I9, log 5). -/
opaque Config.freePoll : Nat → Bool

/-- Whether the host's n-th free answer to a blocking read is end-of-input (R183, log 5). -/
opaque Config.freeEnd : Nat → Bool

/-- The byte of the host's n-th free answer to a read (R183, log 5). -/
opaque Config.freeByte : Nat → Byte

/-- Whether the host accepts the n-th write whose answer is free (R183 "may fail", log 5). -/
opaque Config.freeAccept : Nat → Bool

/-- The parameters as the machine is built: the spec's defaults for the addresses and `TRAP_LINKS_R7` (R7), and opaque
values for what R7 leaves OPEN (log 3, log 4). -/
def Params.default : Params where
  kbsrAddr := 0xFE00
  kbdrAddr := 0xFE02
  trapLinksR7 := false
  inPrompt := Config.inPrompt
  haltAnnounce := Config.haltAnnounce
  exitFailureCode := Config.exitFailureCode

end Sys2Proof
end

