-- ==== Sys2Proof/Machine/State.lean ====
section
/-! DEFINITION. The whole state of the engine and its attachments (10_state.md R35), as plain data, the reasons a step can
stop, and the state after reset (70_reset_and_hazards.md R190). -/

namespace Sys2Proof.Machine

/-! ## Faults of the engine, and the run state -/

/-- The six trap service routines (R140, C3). -/
inductive Routine where
  | getc
  | out
  | puts
  | inChar
  | putsp
  | halt
deriving DecidableEq, Repr

/-- Which console operation failed (R171, `ConsoleIoError`). -/
inductive IoDirection where
  | read
  | write
deriving DecidableEq, Repr

/-- The fault kinds of R171 with the information each records. -/
inductive FaultKind where
  /-- Code 1: opcode RTI or RES at address `addr`; `instr` is the word (R172). -/
  | invalidOpcode (addr instr : Word)
  /-- Code 2: TRAP at `addr` with a vector outside 0x20-0x25 (R173). -/
  | unimplementedTrap (addr : Word) (vector : Byte)
  /-- Code 3: end-of-input on a blocking read, or a failed write, in a routine called at `addr` (R174). -/
  | consoleIoError (addr : Word) (routine : Routine) (direction : IoDirection)
  /-- Code 4: a PUTS or PUTSP string that starts at `start` runs past 0xFFFF (R148, R175). -/
  | stringScanWrap (addr start : Word)
deriving DecidableEq, Repr

/-- The loader's failures (R194); boot failures, not faults of a step (R171). -/
inductive LoadError where
  | imageIoError
  | imageTruncatedError
deriving DecidableEq, Repr

/-- Which exit `Halted` records (R31): clean after HALT, a fault, or a boot that failed before the first step (R194). -/
inductive Exit where
  | clean
  | fault (f : FaultKind)
  | bootFailure (e : LoadError)
deriving DecidableEq, Repr

/-- The Execution Loop's state variable `run` (R31). -/
inductive RunState where
  | running
  | halted (exit : Exit)
deriving DecidableEq, Repr

/-! ## Registers and memory -/

/-- The register file: eleven 16-bit slots (R20). -/
structure RegFile where
  /-- R0-R7 (R22). -/
  gpr : Vector Word 8
  /-- PC, a word address (R24). -/
  pc : Word
  /-- COND: 0x0004 for N, 0x0002 for Z, 0x0001 for P (R25). -/
  cond : Word
  /-- The instruction counter, which nothing reads or writes (R29). -/
  count : Word
deriving DecidableEq, Repr

/-- Memory as its listed cells, `(address, word)`, in the canonical form of `Memory.wf`: the addressable unit is the 16-bit
word and there is no byte address (R40), so a cell holds a word (log 1). -/
abbrev Memory := List (Nat × Word)

/-- What an address that is not listed reads as: memory is zero-initialised (R32). -/
def Memory.blank : Word := 0x0000

/-! ## The console port -/

/-- The host's answers to one kind of yes/no question, in order: first the scripted ones, then free values; `drawn` counts
the free ones used (log 5). -/
structure Answers where
  script : List Bool
  drawn : Nat
deriving DecidableEq, Repr

/-- How the input goes on once the queued bytes are read (R183): it has ended; the host never answers again; or every
further answer is a free value (log 5, log 6). -/
inductive InputTail where
  | ended
  | silent
  | free
deriving DecidableEq, Repr

/-- The input side of the console port (R33, R183). -/
structure ConsoleInput where
  /-- Bytes the host delivers, oldest first. -/
  pending : List Byte
  tail : InputTail
  /-- The answers to `ConsoleAvail` (R16). -/
  polls : Answers
  /-- How many free read answers have been used (log 5). -/
  readsDrawn : Nat
deriving DecidableEq, Repr

/-- The output side of the console port (R33, R183). -/
structure ConsoleOutput where
  /-- `out`: the bytes written so far, oldest first (R33). -/
  bytes : List Byte
  /-- Whether the host accepts the next writes (R183 "may fail"). -/
  accepts : Answers
deriving DecidableEq, Repr

/-! ## The whole state -/

/-- R35's components, and the parameters of R7 (log 3). -/
structure State where
  regs : RegFile
  mem : Memory
  run : RunState
  input : ConsoleInput
  output : ConsoleOutput
  params : Params
deriving DecidableEq, Repr

/-- Why a step has no next state. Neither is a fault of R171: those are next states with `run` at `Halted`. -/
inductive Fault where
  /-- Raised by `step`: the engine is `Halted`, and "after `Halted` no further step is taken" (R81, R189). Safe: the run has
  ended (log 7). -/
  | halted
  /-- Raised by GETC and IN: a blocking read that the host never answers; the step has no successor (R183, I8). Safe: the
  model stops where the hardware waits for ever (log 7). -/
  | inputBlocked
deriving DecidableEq, Repr

/-- Why an instruction has no meaning. No instruction of this hardware is refused. -/
inductive Refusal where
  /-- Would be raised by an arm of `exec` whose instruction has no meaning yet; no arm raises it. Safe. -/
  | notModelled (mnemonic : String)
deriving DecidableEq, Repr

/-- Reset (R190): every register 0 but PC = 0x3000 and COND = Z; `Running`; memory zero; output empty. The console input is
"whatever the host provides" (R35): nothing scripted, every answer a free value (log 6). -/
def State.reset : State where
  regs := ⟨Vector.replicate 8 0x0000, 0x3000, 0x0002, 0x0000⟩
  mem := []
  run := .running
  input := ⟨[], .free, ⟨[], 0⟩, 0⟩
  output := ⟨[], ⟨[], 0⟩⟩
  params := Params.default

end Sys2Proof.Machine
end

