-- ==== Sys2Proof/Machine/Ops.lean ====
section
/-! DEFINITION. The named operations over registers, memory and the console, the keyboard-status refresh, the fetch, and
raising a fault. -/

namespace Sys2Proof.Machine

/-! ## The register file (10_state.md R20, R21) -/

/-- A register identifier: one of the eleven slots (R20). -/
inductive RegId where
  | gpr (r : Reg)
  | pc
  | cond
  | count
deriving DecidableEq, Repr

/-- The identifiers' numbers (R21, D23): R0-R7 = 0-7, PC = 8, COND = 9, the counter = 10; no program can observe them. -/
def RegId.number : RegId → Nat
  | .gpr r => r.val
  | .pc => 8
  | .cond => 9
  | .count => 10

/-- `get(register_id)` (R20). -/
def RegFile.get (f : RegFile) : RegId → Word
  | .gpr r => f.gpr[r.val]
  | .pc => f.pc
  | .cond => f.cond
  | .count => f.count

/-- `set(register_id, word)` (R20). -/
def RegFile.set (f : RegFile) (r : RegId) (v : Word) : RegFile :=
  match r with
  | .gpr r => { f with gpr := f.gpr.set r.val v }
  | .pc => { f with pc := v }
  | .cond => { f with cond := v }
  | .count => { f with count := v }

/-- `x[r]` (R12). -/
def State.reg (s : State) (r : Reg) : Word := s.regs.get (.gpr r)

/-- `pc` (R12). -/
def State.pc (s : State) : Word := s.regs.get .pc

/-- `cond` (R12). -/
def State.cond (s : State) : Word := s.regs.get .cond

/-- The instruction counter (R29). -/
def State.count (s : State) : Word := s.regs.get .count

/-- `out` (R33). -/
def State.out (s : State) : List Byte := s.output.bytes

/-- `x[r] <- v` (R12). -/
def State.setReg (s : State) (r : Reg) (v : Word) : State := { s with regs := s.regs.set (.gpr r) v }

/-- `pc <- v` (R12). -/
def State.setPc (s : State) (v : Word) : State := { s with regs := s.regs.set .pc v }

/-- `cond <- v`. -/
def State.setCond (s : State) (v : Word) : State := { s with regs := s.regs.set .cond v }

/-- `s` with another memory. -/
def State.setMem (s : State) (m : Memory) : State := { s with mem := m }

/-- `s` with another input side of the console. -/
def State.setInput (s : State) (c : ConsoleInput) : State := { s with input := c }

/-- `s` with another output side of the console. -/
def State.setOutput (s : State) (c : ConsoleOutput) : State := { s with output := c }

/-- `run <- Halted(exit)` (R31). -/
def State.setHalted (s : State) (e : Exit) : State := { s with run := .halted e }

/-! ## Memory (20_memory.md R40-R42) -/

/-- The word listed at key `k`, or what an unlisted address reads as. -/
def Memory.lookup : Memory → Nat → Word
  | [], _ => Memory.blank
  | (k', v) :: rest, k => if k = k' then v else Memory.lookup rest k

/-- Stores `v` at key `k`, keeping the keys rising and listing no blank word. -/
def Memory.insert : Memory → Nat → Word → Memory
  | [], k, v => if v = Memory.blank then [] else [(k, v)]
  | (k', v') :: rest, k, v =>
    if k < k' then (if v = Memory.blank then (k', v') :: rest else (k, v) :: (k', v') :: rest)
    else if k = k' then (if v = Memory.blank then rest else (k, v) :: rest)
    else (k', v') :: Memory.insert rest k v

/-- Keys rise from `lo` on, lie in the address space, and no listed word is blank. -/
def Memory.wfFrom : Nat → Memory → Bool
  | _, [] => true
  | lo, (k, v) :: rest => lo ≤ k && k < 0x10000 && v != Memory.blank && Memory.wfFrom (k + 1) rest

/-- The canonical form: equal memories are equal lists (log 1). -/
def Memory.wf (m : Memory) : Bool := Memory.wfFrom 0 m

/-- `M[a]`: the stored word, without side effect (R13). -/
def Memory.read (m : Memory) (a : Word) : Word := Memory.lookup m a.toNat

/-- `M[a] <- v` (R42). -/
def Memory.write (m : Memory) (a v : Word) : Memory := Memory.insert m a.toNat v

/-! ## The host's answers (60_exceptions.md R183) -/

/-- The next answer: the first scripted one, or the next free value. -/
def Answers.next (q : Answers) (free : Nat → Bool) : Bool :=
  match q.script with
  | b :: _ => b
  | [] => free q.drawn

/-- What is left after one answer. -/
def Answers.rest (q : Answers) : Answers :=
  match q.script with
  | _ :: bs => ⟨bs, q.drawn⟩
  | [] => ⟨[], q.drawn + 1⟩

/-- Whether a byte can be read at once: R183 lets a poll answer true "only if `read_byte` would not block". -/
def ConsoleInput.canDeliver (c : ConsoleInput) : Bool := !c.pending.isEmpty || c.tail == .free

/-- `ConsoleAvail()` (R16): a host draw, under the duty of R183 (log 5). -/
def ConsoleInput.avail (c : ConsoleInput) : Bool := c.polls.next Config.freePoll && c.canDeliver

/-- The input after one poll. -/
def ConsoleInput.polled (c : ConsoleInput) : ConsoleInput := { c with polls := c.polls.rest }

/-- `ConsoleIn()` where a byte is available (R45): the byte, and the input without it. -/
def ConsoleInput.take (c : ConsoleInput) : Byte × ConsoleInput :=
  match c.pending with
  | b :: rest => (b, { c with pending := rest })
  | [] => (Config.freeByte c.readsDrawn, { c with readsDrawn := c.readsDrawn + 1 })

/-- `ConsoleIn()` as a blocking read (R16, R183): `none` where the host never answers, else the answer (a byte, or `none`
for end-of-input) and the input after it. -/
def ConsoleInput.read (c : ConsoleInput) : Option (Option Byte × ConsoleInput) :=
  match c.pending, c.tail with
  | b :: rest, _ => some (some b, { c with pending := rest })
  | [], .ended => some (none, c)
  | [], .silent => none
  | [], .free =>
    some (if Config.freeEnd c.readsDrawn then none else some (Config.freeByte c.readsDrawn),
      { c with
        readsDrawn := c.readsDrawn + 1
        tail := if Config.freeEnd c.readsDrawn then .ended else .free })

/-! ## The memory port (20_memory.md R41-R48) -/

/-- `KBSR_READY` (R7, D6). -/
def kbsrReady : Word := 0x8000

/-- The keyboard-status refresh (R45): polls; if a byte is available takes it, sets KBSR and puts it in KBDR; else clears
KBSR and leaves KBDR. -/
def refreshKeyboard (s : State) : State :=
  let polled := s.input.polled
  if s.input.avail then
    (s.setInput polled.take.2).setMem
      ((s.mem.write s.params.kbsrAddr kbsrReady).write s.params.kbdrAddr (zext polled.take.1))
  else
    (s.setInput polled).setMem (s.mem.write s.params.kbsrAddr 0x0000)

/-- The state in which `MemRead(a, 16)` returns: refreshed if `a = KBSR_ADDR` (R13, R45, R47). -/
def State.afterRead (s : State) (a : Word) : State := if a = s.params.kbsrAddr then refreshKeyboard s else s

/-- The word `MemRead(a, 16)` returns: the one stored at `a` after any refresh (R41, R45). -/
def State.memRead (s : State) (a : Word) : Word := (s.afterRead a).mem.read a

/-- `MemWrite(a, 16, v)`: stores the word, with no side effect at any address (R13, R42). -/
def State.memWrite (s : State) (a v : Word) : State := s.setMem (s.mem.write a v)

/-- The fetched word (R80, first two lines): a read, so a fetch from KBSR refreshes (R47). -/
def State.fetchWord (s : State) : Word := s.memRead s.pc

/-- The state an instruction executes in: after the fetch, with PC at the next word (R80). -/
def State.fetched (s : State) : State := (s.afterRead s.pc).setPc (s.pc + 1)

/-! ## Faults and exits (60_exceptions.md R170-R178) -/

/-- `a`: the address of the instruction being executed; PC is one past it (R80, log 11). -/
def State.instrAddr (s : State) : Word := s.pc - 1

/-- `raise F` (R15, R176). `start` is the state in which the instruction began to execute, `s` the one in which it raises:
the register file goes back to what it was before the fetch, so PC is the instruction's address; memory, input and output
stay as the step's reads and writes left them; `run` records the fault. -/
def raiseFault (start s : State) (f : FaultKind) : State :=
  { s with
    regs := start.regs.set .pc start.instrAddr
    run := .halted (.fault f) }

/-- `halt` (R15, R147): a clean exit. -/
def State.haltClean (s : State) : State := s.setHalted .clean

/-- The numeric code of a fault (R171, D13). -/
def FaultKind.code : FaultKind → Nat
  | .invalidOpcode .. => 1
  | .unimplementedTrap .. => 2
  | .consoleIoError .. => 3
  | .stringScanWrap .. => 4

/-- The exit status on the status output (R3c, R178): none while running, 0 after HALT, `EXIT_FAILURE_CODE` otherwise. -/
def State.exitStatus (s : State) : Option Int :=
  match s.run with
  | .running => none
  | .halted .clean => some 0
  | .halted (.fault _) => some s.params.exitFailureCode.value
  | .halted (.bootFailure _) => some s.params.exitFailureCode.value

/-! ## Console output (00_scope.md R16) -/

/-- Where a sequence of console operations stands: still running, or stopped by its first fault (R177). -/
inductive Flow where
  | done (s : State)
  | raised (s : State) (f : FaultKind)
deriving DecidableEq, Repr

/-- Goes on with `k` unless a fault has been raised. -/
def Flow.andThen (x : Flow) (k : State → Flow) : Flow :=
  match x with
  | .done s => k s
  | .raised s f => .raised s f

/-- The state the step ends in: a raised fault is taken as `raiseFault` says. -/
def Flow.finish (start : State) : Flow → State
  | .done s => s
  | .raised s f => raiseFault start s f

/-- Whether the host accepts the next write (R183). -/
def ConsoleOutput.accepted (c : ConsoleOutput) : Bool := c.accepts.next Config.freeAccept

/-- The output side after one write of `b`: "on success appends `b` to the output, in order" (R183). -/
def ConsoleOutput.written (c : ConsoleOutput) (b : Byte) : ConsoleOutput :=
  ⟨if c.accepted then c.bytes ++ [b] else c.bytes, c.accepts.rest⟩

/-- `ConsoleOut(b)` (R16): a failed write raises `onFail` (R174). -/
def consoleOut (onFail : FaultKind) (b : Byte) (s : State) : Flow :=
  if s.output.accepted then .done (s.setOutput (s.output.written b))
  else .raised (s.setOutput (s.output.written b)) onFail

/-- `ConsoleOutStr(bs)` (R16): the bytes in order, stopping at the first failed write. -/
def consoleOutStr (onFail : FaultKind) : List Byte → State → Flow
  | [], s => .done s
  | b :: bs, s => (consoleOut onFail b s).andThen (consoleOutStr onFail bs)

/-- `ConsoleFlush()` (R16): no effect on the modelled output (R183, D16). -/
def consoleFlush (s : State) : Flow := .done s

end Sys2Proof.Machine
end

