-- ==== Sys2Proof/Machine/Flags.lean ====
section
/-! DEFINITION. The condition flags (00_scope.md R14, 10_state.md R25, R26). -/

namespace Sys2Proof.Machine

/-- COND = N (R25, D3). -/
def condN : Word := 0x0004

/-- COND = Z (R25, D3). -/
def condZ : Word := 0x0002

/-- COND = P (R25, D3). -/
def condP : Word := 0x0001

/-- The flag `setcc` writes for `v` (R14): Z if zero, else N if bit 15 is set, else P. -/
def flagOf (v : Word) : Word := if v = 0 then condZ else if v.msb then condN else condP

/-- `setcc(v)` (R14). -/
def setcc (v : Word) (s : State) : State := s.setCond (flagOf v)

/-- `x[dr] <- v` and then `setcc(v)`, "immediately after the register write" (R26). -/
def writeResult (dr : Reg) (v : Word) (s : State) : State := setcc v (s.setReg dr v)

/-- BR's test: `(instr[11:9] AND cond) != 0` (R110). -/
def branchTaken (nzp : BitVec 3) (s : State) : Bool := (nzp.setWidth 16 &&& s.cond) != 0

end Sys2Proof.Machine
end

