-- ==== Sys2Proof/Machine/Operands.lean ====
section
/-! DEFINITION. The operand and address forms (30_encoding.md R64, R65; 42_load.md R124). PC is already incremented. -/

namespace Sys2Proof.Machine

/-- An immediate operand: imm5, sign-extended (R64, R65). -/
def immOperand (imm5 : BitVec 5) : Word := sext imm5

/-- PC-relative: `pc + sext_9(PCoffset9)` or `pc + sext_11(PCoffset11)` (R65), modulo 2^16 (R54). -/
def pcRelative {n : Nat} (off : BitVec n) (s : State) : Word := s.pc + sext off

/-- Base plus offset: `x[BaseR] + sext_6(offset6)` (R65), modulo 2^16 (R54). -/
def baseRelative (base : Reg) (off6 : BitVec 6) (s : State) : Word := s.reg base + sext off6

end Sys2Proof.Machine
end

