-- ==== Sys2Proof/Machine/Control.lean ====
section
/-! DEFINITION. Control transfer: BR, JMP, JSR, JSRR (41_control.md R110-R114). -/

namespace Sys2Proof.Machine

/-- R7, the link register (R23). -/
def linkReg : Reg := 7

/-- BR (R110). -/
def execBr (nzp : BitVec 3) (off9 : BitVec 9) (s : State) : Host.Outcome State Fault Refusal :=
  .next (if branchTaken nzp s then s.setPc (pcRelative off9 s) else s)

/-- JMP, and RET as JMP R7 (R111). -/
def execJmp (base : Reg) (s : State) : Host.Outcome State Fault Refusal := .next (s.setPc (s.reg base))

/-- JSR (R112): R7 gets the incremented PC, and the target is relative to that same value. -/
def execJsr (off11 : BitVec 11) (s : State) : Host.Outcome State Fault Refusal :=
  .next ((s.setReg linkReg s.pc).setPc (pcRelative off11 s))

/-- JSRR (R113, D10): R7 is written first and BaseR read after it, so JSRR R7 goes to the next word. -/
def execJsrr (base : Reg) (s : State) : Host.Outcome State Fault Refusal :=
  let linked := s.setReg linkReg s.pc
  .next (linked.setPc (linked.reg base))

end Sys2Proof.Machine
end

