-- ==== Sys2Proof/Machine/Load.lean ====
section
/-! DEFINITION. Loads and LEA (42_load.md R120-R124). Every read is `MemRead`, so it refreshes at KBSR (R47). -/

namespace Sys2Proof.Machine

/-- Reads the word at `a` into `dr` and sets the flags from it: the last three lines of R120 and R122. -/
def loadFrom (dr : Reg) (a : Word) (s : State) : State := writeResult dr (s.memRead a) (s.afterRead a)

/-- LD (R120). -/
def execLd (dr : Reg) (off9 : BitVec 9) (s : State) : Host.Outcome State Fault Refusal :=
  .next (loadFrom dr (pcRelative off9 s) s)

/-- LDI (R121): the pointer is read first, then the word it names. -/
def execLdi (dr : Reg) (off9 : BitVec 9) (s : State) : Host.Outcome State Fault Refusal :=
  .next (loadFrom dr (s.memRead (pcRelative off9 s)) (s.afterRead (pcRelative off9 s)))

/-- LDR (R122). -/
def execLdr (dr base : Reg) (off6 : BitVec 6) (s : State) : Host.Outcome State Fault Refusal :=
  .next (loadFrom dr (baseRelative base off6 s) s)

/-- LEA (R123): flags from the address; memory is not accessed. -/
def execLea (dr : Reg) (off9 : BitVec 9) (s : State) : Host.Outcome State Fault Refusal :=
  .next (writeResult dr (pcRelative off9 s) s)

end Sys2Proof.Machine
end

