-- ==== Sys2Proof/Machine/Operate.lean ====
section
/-! DEFINITION. The operate family: ADD, AND, NOT (40_operate.md R100-R103). -/

namespace Sys2Proof.Machine

/-- ADD, register mode (R100): the sum wraps modulo 2^16 and sets no carry. -/
def execAdd (dr sr1 sr2 : Reg) (s : State) : Host.Outcome State Fault Refusal :=
  .next (writeResult dr (s.reg sr1 + s.reg sr2) s)

/-- ADD, immediate mode (R100). -/
def execAddi (dr sr1 : Reg) (imm5 : BitVec 5) (s : State) : Host.Outcome State Fault Refusal :=
  .next (writeResult dr (s.reg sr1 + immOperand imm5) s)

/-- AND, register mode (R101). -/
def execAnd (dr sr1 sr2 : Reg) (s : State) : Host.Outcome State Fault Refusal :=
  .next (writeResult dr (s.reg sr1 &&& s.reg sr2) s)

/-- AND, immediate mode (R101): the immediate is sign-extended before the AND. -/
def execAndi (dr sr1 : Reg) (imm5 : BitVec 5) (s : State) : Host.Outcome State Fault Refusal :=
  .next (writeResult dr (s.reg sr1 &&& immOperand imm5) s)

/-- NOT (R102): all 16 bits complemented. -/
def execNot (dr sr : Reg) (s : State) : Host.Outcome State Fault Refusal :=
  .next (writeResult dr (~~~ s.reg sr) s)

end Sys2Proof.Machine
end

