-- ==== Sys2Proof/Machine/Reserved.lean ====
section
/-! DEFINITION. The reserved opcodes RTI and RES (45_reserved.md R160, R161): each raises `InvalidOpcode` (R172). -/

namespace Sys2Proof.Machine

/-- RTI (R160): the word is 0x8000 to 0x8FFF. -/
def execRti (low : BitVec 12) (s : State) : Host.Outcome State Fault Refusal :=
  .next (raiseFault s s (.invalidOpcode s.instrAddr (0x8#4 ++ low)))

/-- RES (R161): the word is 0xD000 to 0xDFFF. -/
def execRes (low : BitVec 12) (s : State) : Host.Outcome State Fault Refusal :=
  .next (raiseFault s s (.invalidOpcode s.instrAddr (0xD#4 ++ low)))

end Sys2Proof.Machine
end

