-- ==== Sys2Proof/Machine/Store.lean ====
section
/-! DEFINITION. Stores (43_store.md R130-R133). A write has no side effect, at KBSR and KBDR too (R42). -/

namespace Sys2Proof.Machine

/-- ST (R130). -/
def execSt (sr : Reg) (off9 : BitVec 9) (s : State) : Host.Outcome State Fault Refusal :=
  .next (s.memWrite (pcRelative off9 s) (s.reg sr))

/-- STI (R131): the pointer is read by `MemRead`, then the word is stored where it points. -/
def execSti (sr : Reg) (off9 : BitVec 9) (s : State) : Host.Outcome State Fault Refusal :=
  .next ((s.afterRead (pcRelative off9 s)).memWrite (s.memRead (pcRelative off9 s)) (s.reg sr))

/-- STR (R132). -/
def execStr (sr base : Reg) (off6 : BitVec 6) (s : State) : Host.Outcome State Fault Refusal :=
  .next (s.memWrite (baseRelative base off6 s) (s.reg sr))

end Sys2Proof.Machine
end

