-- ==== Sys2Proof/Machine/Trap.lean ====
section
/-! DEFINITION. TRAP and the six service routines (44_trap.md R140-R150). A routine runs to completion within the step of its
TRAP (R82). `start` is the state in which the TRAP began to execute. -/

namespace Sys2Proof.Machine

/-- `if TRAP_LINKS_R7 then x[7] <- pc`, before the routine (R140, R141). -/
def trapLink (s : State) : State := if s.params.trapLinksR7 then s.setReg linkReg s.pc else s

/-- The fault of a failed console operation of routine `r` (R174). -/
def ioError (start : State) (r : Routine) (d : IoDirection) : FaultKind := .consoleIoError start.instrAddr r d

/-- `x[0]`: the argument and result register of the routines (R23). -/
def argReg : Reg := 0

/-- GETC once the host has answered (R142): end-of-input raises, a byte goes to R0 without echo and without flags. -/
def getcRoutine (start : State) (answer : Option Byte) (s : State) : Flow :=
  match answer with
  | none => .raised s (ioError start .getc .read)
  | some b => .done (s.setReg argReg (zext b))

/-- OUT (R143): the low byte of R0. -/
def outRoutine (start s : State) : Flow := consoleOut (ioError start .out .write) (loByte (s.reg argReg)) s

/-- The characters PUTS writes for a non-zero word: its low byte (R144, D21). -/
def putsChars (w : Word) : List Byte := [loByte w]

/-- The characters PUTSP writes for a non-zero word: its low byte, then its high byte unless that is zero (R146, D21). -/
def putspChars (w : Word) : List Byte := if hiByte w = 0 then [loByte w] else [loByte w, hiByte w]

/-- The loop of PUTS and PUTSP (R144, R146): from address `p` on, for at most `fuel` words. A zero word ends it; when the
words up to and including 0xFFFF are used up, `StringScanWrap` is raised (R148). -/
def scanString (onFail onWrap : FaultKind) (chars : Word → List Byte) : Nat → Word → State → Flow
  | 0, _, s => .raised s onWrap
  | fuel + 1, p, s =>
    if s.memRead p = 0x0000 then consoleFlush (s.afterRead p)
    else (consoleOutStr onFail (chars (s.memRead p)) (s.afterRead p)).andThen
      (scanString onFail onWrap chars fuel (p + 1))

/-- How many words there are from `p` to 0xFFFF. -/
def wordsToTop (p : Word) : Nat := 0x10000 - p.toNat

/-- PUTS and PUTSP: the scan from the address in R0 (R144, R146). -/
def stringRoutine (start : State) (r : Routine) (chars : Word → List Byte) (s : State) : Flow :=
  scanString (ioError start r .write) (.stringScanWrap start.instrAddr (s.reg argReg)) chars
    (wordsToTop (s.reg argReg)) (s.reg argReg) s

/-- IN's prompt (R145, first line). -/
def inPromptRoutine (start s : State) : Flow := consoleOutStr (ioError start .inChar .write) s.params.inPrompt s

/-- IN after its prompt, once the host has answered (R145): end-of-input raises; a byte is echoed, goes to R0 and sets the
flags, in that order (D28). -/
def inRoutine (start : State) (answer : Option Byte) (s : State) : Flow :=
  match answer with
  | none => .raised s (ioError start .inChar .read)
  | some b => (consoleOut (ioError start .inChar .write) b s).andThen fun t => .done (writeResult argReg (zext b) t)

/-- HALT (R147): the announcement, then a clean exit; PC stays one past the TRAP. -/
def haltRoutine (start s : State) : Flow :=
  (consoleOutStr (ioError start .halt .write) s.params.haltAnnounce s).andThen fun t => .done t.haltClean

/-- TRAP x20 (R140, R142). An input that never answers leaves the step without a successor (R183, log 7). -/
def trapGetc (s : State) : Host.Outcome State Fault Refusal :=
  match s.input.read with
  | none => .fault .inputBlocked
  | some (answer, input) => .next ((getcRoutine s answer ((trapLink s).setInput input)).finish s)

/-- TRAP x21 (R140, R143). -/
def trapOut (s : State) : Host.Outcome State Fault Refusal := .next ((outRoutine s (trapLink s)).finish s)

/-- TRAP x22 (R140, R144). -/
def trapPuts (s : State) : Host.Outcome State Fault Refusal :=
  .next ((stringRoutine s .puts putsChars (trapLink s)).finish s)

/-- TRAP x23 (R140, R145). The input and the output side of the console are independent (R183), so the host's answer to the
one read of the routine is looked up first; it is used after the prompt. Where the host never answers, the step has no
successor, unless the prompt's write has failed before. -/
def trapIn (s : State) : Host.Outcome State Fault Refusal :=
  match s.input.read with
  | none =>
    match inPromptRoutine s (trapLink s) with
    | .raised t f => .next (raiseFault s t f)
    | .done _ => .fault .inputBlocked
  | some (answer, input) =>
    .next (((inPromptRoutine s (trapLink s)).andThen fun t => inRoutine s answer (t.setInput input)).finish s)

/-- TRAP x24 (R140, R146). -/
def trapPutsp (s : State) : Host.Outcome State Fault Refusal :=
  .next ((stringRoutine s .putsp putspChars (trapLink s)).finish s)

/-- TRAP x25 (R140, R147). -/
def trapHalt (s : State) : Host.Outcome State Fault Refusal := .next ((haltRoutine s (trapLink s)).finish s)

/-- A vector with no routine (R140, R173): raised before any routine runs. -/
def trapUnimplemented (v : Byte) (s : State) : Host.Outcome State Fault Refusal :=
  .next (raiseFault s (trapLink s) (.unimplementedTrap s.instrAddr v))

/-- TRAP (R140): the dispatch on the vector. -/
def execTrap (v : Byte) (s : State) : Host.Outcome State Fault Refusal :=
  if v = 0x20 then trapGetc s
  else if v = 0x21 then trapOut s
  else if v = 0x22 then trapPuts s
  else if v = 0x23 then trapIn s
  else if v = 0x24 then trapPutsp s
  else if v = 0x25 then trapHalt s
  else trapUnimplemented v s

/-- GETC (R142). -/
def execGetc (s : State) : Host.Outcome State Fault Refusal := trapGetc s

/-- OUT (R143). -/
def execOut (s : State) : Host.Outcome State Fault Refusal := trapOut s

/-- PUTS (R144). -/
def execPuts (s : State) : Host.Outcome State Fault Refusal := trapPuts s

/-- IN (R145). -/
def execIn (s : State) : Host.Outcome State Fault Refusal := trapIn s

/-- PUTSP (R146). -/
def execPutsp (s : State) : Host.Outcome State Fault Refusal := trapPutsp s

/-- HALT (R147). -/
def execHalt (s : State) : Host.Outcome State Fault Refusal := trapHalt s

end Sys2Proof.Machine
end

