-- ==== Sys2Proof/Machine/Step.lean ====
section
/-! DEFINITION. One step of the Execution Loop (30_encoding.md R80, R81). -/

namespace Sys2Proof.Machine

/-- `step()` (R80): only while `Running`; fetch, increment PC, decode, execute. A halted engine takes no step (R81). -/
def step (s : State) : Host.Outcome State Fault Refusal :=
  match s.run with
  | .halted _ => .fault .halted
  | .running => exec (decode s.fetchWord) s.fetched

/-- `s` with the instruction word `w` stored at PC and `run` at `Running`, so that the next step runs it (log 13). At
PC = KBSR_ADDR no word can be placed: the fetch itself overwrites it (R47). -/
def State.withFetchWord (s : State) (nbits w : Nat) : State :=
  { s with
    mem := s.mem.write s.pc (BitVec.ofNat 16 (w % 2 ^ nbits))
    run := .running }

end Sys2Proof.Machine
end

