-- ==== Sys2Proof/Machine/Boot.lean ====
section
/-! DEFINITION. The boot interface: loading the program images (70_reset_and_hazards.md R191-R196). -/

namespace Sys2Proof.Machine

/-- An image as the loader meets it: a source that cannot be opened or read (R194), or its bytes. -/
inductive ImageSource where
  | unreadable
  | bytes (bs : List Byte)
deriving DecidableEq, Repr

/-- Stores the big-endian words of `bs` from address `a` on (R191). A final odd byte is ignored and words past 0xFFFF are
discarded (R193). A raw store: no keyboard refresh. -/
def loadWords (m : Memory) (a : Nat) : List Byte → Memory
  | b0 :: b1 :: rest =>
    if a < 0x10000 then loadWords (m.write (BitVec.ofNat 16 a) (wordOfBytes b0 b1)) (a + 1) rest else m
  | [_] => m
  | [] => m

/-- Loads one image (R191, R194): its first two bytes are the origin. -/
def loadImage (m : Memory) : ImageSource → Except LoadError Memory
  | .unreadable => .error .imageIoError
  | .bytes (b0 :: b1 :: rest) => .ok (loadWords m (wordOfBytes b0 b1).toNat rest)
  | .bytes [_] => .error .imageTruncatedError
  | .bytes [] => .error .imageTruncatedError

/-- Loads the images in order into `s`; the first that fails ends the boot (R192, R194, log 14). -/
def loadImages (s : State) : List ImageSource → State
  | [] => s
  | i :: rest =>
    match loadImage s.mem i with
    | .ok m => loadImages (s.setMem m) rest
    | .error e => s.setHalted (.bootFailure e)

/-- Boot (R196): reset, then every image; PC is not set from an origin (R191). -/
def State.boot (images : List ImageSource) : State := loadImages State.reset images

end Sys2Proof.Machine
end

