-- ==== Sys2Proof/Safety.lean ====
section
/-! DEFINITION. The terms claims use: the invariant of every reachable state, and which runs have ended well. -/

namespace Sys2Proof.Machine

/-- COND holds exactly one of N, Z and P (R28). -/
abbrev State.CondLegal (s : State) : Prop := s.cond = condN ∨ s.cond = condZ ∨ s.cond = condP

/-- What holds at reset and after every step: memory is canonical and in the address space (R32, R40), COND holds exactly
one flag (R28), the instruction counter is 0 (R29), and the two keyboard addresses differ (R44). -/
structure State.Inv (s : State) : Prop where
  memWf : s.mem.wf = true
  condLegal : s.CondLegal
  countZero : s.count = 0
  keyboardDistinct : s.params.kbsrAddr ≠ s.params.kbdrAddr

/-- A blocking read would never be answered (R183, I8). -/
abbrev State.InputSilent (s : State) : Prop := s.input.pending = [] ∧ s.input.tail = .silent

/-- The engine still runs or has ended by HALT: no fault has been raised (R170, R179). -/
def State.faultFree (s : State) : Bool :=
  match s.run with
  | .running => true
  | .halted .clean => true
  | .halted (.fault _) => false
  | .halted (.bootFailure _) => false

/-- The host accepts each of the next `n` writes (R183). -/
def acceptsNext (n : Nat) (q : Answers) : Bool :=
  match n with
  | 0 => true
  | n + 1 => q.next Config.freeAccept && acceptsNext n q.rest

/-- The host's answers that are left after `n` writes. -/
def answersAfter (n : Nat) (q : Answers) : Answers :=
  match n with
  | 0 => q
  | n + 1 => answersAfter n q.rest

/-! ## Words read the way the spec writes them (R8), independently of the decoder -/

/-- `w[hi:lo]` (R8). -/
def bits (w : Word) (hi lo : Nat) : BitVec (hi - lo + 1) := w.extractLsb' lo (hi - lo + 1)

/-- The register named by the three bits of `w` from `lo` on: `(w >> lo) & 7` (R62, C1). -/
def regAt (w : Word) (lo : Nat) : Reg := Fin.ofNat 8 (w.toNat / 2 ^ lo)

/-- The bits that carry no field, by opcode (R67): ADD/AND register mode 4:3; NOT 5:0; JMP 11:9 and 5:0; JSRR 10:9 and 5:0;
TRAP 11:8. -/
def ignoredBits (w : Word) : Word :=
  if bits w 15 12 = 0x1 ∨ bits w 15 12 = 0x5 then (if bits w 5 5 = 0 then 0x0018 else 0x0000)
  else if bits w 15 12 = 0x9 then 0x003F
  else if bits w 15 12 = 0xC then 0x0E3F
  else if bits w 15 12 = 0x4 then (if bits w 11 11 = 0 then 0x063F else 0x0000)
  else if bits w 15 12 = 0xF then 0x0F00
  else 0x0000

/-! ## What a step leaves as it was, and what it writes

`s` is the state before, `t` the state after. -/

/-- COND after `setcc(v)` (R14, R25): Z for zero, else N if bit 15 is set, else P. -/
def FlagsReflect (v cond : Word) : Prop :=
  cond = if v = 0x0000 then 0x0002 else if v.getLsbD 15 then 0x0004 else 0x0001

/-- Every word of memory reads as before. -/
def SameMemory (s t : State) : Prop := ∀ a, t.mem.read a = s.mem.read a

/-- Every general-purpose register but those in `but` is unchanged. -/
def SameRegs (but : List Reg) (s t : State) : Prop := ∀ q, q ∉ but → t.reg q = s.reg q

/-- The instruction counter and the parameters are unchanged. -/
def SameFixed (s t : State) : Prop := t.count = s.count ∧ t.params = s.params

/-- The run state and both sides of the console are unchanged, with what `SameFixed` says. -/
def SameSurroundings (s t : State) : Prop :=
  t.run = s.run ∧ t.input = s.input ∧ t.output = s.output ∧ SameFixed s t

/-- The shape of ADD, AND, NOT, LEA and (after their reads) the loads: `dr` gets `v`, COND the flags of `v`; nothing else
changes, PC included (it was incremented by the fetch). -/
structure WritesResult (dr : Reg) (v : Word) (s t : State) : Prop where
  result : t.reg dr = v
  flags : FlagsReflect v t.cond
  regs : SameRegs [dr] s t
  pc : t.pc = s.pc
  mem : SameMemory s t
  rest : SameSurroundings s t

/-- The shape of a store: the word at `a` is `v`; nothing else changes. -/
structure StoresWord (a v : Word) (s t : State) : Prop where
  mem : ∀ b, t.mem.read b = if b = a then v else s.mem.read b
  regs : SameRegs [] s t
  cond : t.cond = s.cond
  pc : t.pc = s.pc
  rest : SameSurroundings s t

/-- The shape of a control transfer: PC is `target`, the registers in `link` hold `s.pc`; nothing else changes. -/
structure Transfers (link : List Reg) (target : Word) (s t : State) : Prop where
  pc : t.pc = target
  linked : ∀ q ∈ link, t.reg q = s.pc
  regs : SameRegs link s t
  cond : t.cond = s.cond
  mem : SameMemory s t
  rest : SameSurroundings s t

/-- The registers TRAP itself writes: R7 under `TRAP_LINKS_R7`, none otherwise (R141). -/
def trapLinked (s : State) : List Reg := if s.params.trapLinksR7 then [7] else []

/-- The shape of a trap routine's effect on the registers: those in `own` are the routine's; R7 is linked by TRAP if
`TRAP_LINKS_R7`; every other one, COND unless `cond` says otherwise, and PC are unchanged (R140, R141). -/
structure TrapRegs (own : List Reg) (s t : State) : Prop where
  linked : ∀ q ∈ trapLinked s, q ∉ own → t.reg q = s.pc
  regs : SameRegs (own ++ trapLinked s) s t
  pc : t.pc = s.pc
  fixed : SameFixed s t

/-- A fault taken while executing (R176): `s` is the state after the fetch, so the faulting instruction is at `s.pc - 1`. All
registers hold what they held before the fetch, and `run` records the fault. -/
structure TakesFault (f : FaultKind) (s t : State) : Prop where
  run : t.run = .halted (.fault f)
  regs : SameRegs [] s t
  pc : t.pc = s.pc - 1
  cond : t.cond = s.cond
  fixed : SameFixed s t

/-- Instructions that may write memory themselves (R133). -/
def isStore : Instr → Bool
  | .st .. | .sti .. | .str .. => true
  | .add .. | .addi .. | .and .. | .andi .. | .not .. | .br .. | .jmp .. | .jsr .. | .jsrr .. | .ld .. | .ldi .. | .ldr ..
  | .lea .. | .trap .. | .getc | .out | .puts | .inChar | .putsp | .halt | .rti .. | .res .. => false

/-- Instructions that write COND (R26): the seven named there and the IN routine. -/
def writesCond : Instr → Bool
  | .add .. | .addi .. | .and .. | .andi .. | .not .. | .ld .. | .ldi .. | .ldr .. | .lea .. | .inChar => true
  | .trap v => v == 0x23
  | .br .. | .jmp .. | .jsr .. | .jsrr .. | .st .. | .sti .. | .str .. | .getc | .out | .puts | .putsp | .halt
  | .rti .. | .res .. => false

/-- The general-purpose registers an instruction may write (R22), `links` being `TRAP_LINKS_R7`. -/
def regsWritten (links : Bool) : Instr → List Reg
  | .add dr .. | .addi dr .. | .and dr .. | .andi dr .. | .not dr .. | .ld dr .. | .ldi dr .. | .ldr dr .. | .lea dr .. => [dr]
  | .jsr .. | .jsrr .. => [7]
  | .getc | .inChar => if links then [0, 7] else [0]
  | .trap v => (if v = 0x20 ∨ v = 0x23 then [0] else []) ++ (if links then [7] else [])
  | .out | .puts | .putsp | .halt => if links then [7] else []
  | .br .. | .jmp .. | .st .. | .sti .. | .str .. | .rti .. | .res .. => []

/-- Instructions that write PC beyond the fetch's increment (R24). -/
def writesPc : Instr → Bool
  | .br .. | .jmp .. | .jsr .. | .jsrr .. => true
  | .add .. | .addi .. | .and .. | .andi .. | .not .. | .ld .. | .ldi .. | .ldr .. | .lea .. | .st .. | .sti .. | .str ..
  | .trap .. | .getc | .out | .puts | .inChar | .putsp | .halt | .rti .. | .res .. => false

/-- How the loop of PUTS and PUTSP ends (R144, R146, R148, R174). -/
inductive ScanEnd where
  | zeroWord
  | wrapped
  | writeFailed
deriving DecidableEq, Repr

/-- `s` with `bs` appended to the output and as many answers used as `used` says. -/
def State.wrote (s : State) (bs : List Byte) (used : Nat) : State :=
  s.setOutput ⟨s.output.bytes ++ bs, answersAfter used s.output.accepts⟩

/-- The loop of R144 and R146 as a relation: `Scans chars p s e t` holds if the loop from address `p` in state `s` ends as `e`
says in state `t`, `chars w` being the bytes it writes for a non-zero word `w`. Every word is read by `MemRead`, so a
string over KBSR refreshes it (R47). -/
inductive Scans (chars : Word → List Byte) : Word → State → ScanEnd → State → Prop where
  /-- The word at `p` reads zero. -/
  | stop (p : Word) (s : State) (zero : s.memRead p = 0x0000) : Scans chars p s .zeroWord (s.afterRead p)
  /-- The word at `p` is not zero and `p` is not the last address: its characters are written and the loop goes on. -/
  | char (p : Word) (s : State) (e : ScanEnd) (t : State) (more : s.memRead p ≠ 0x0000) (inside : p ≠ 0xFFFF)
      (accepted : acceptsNext (chars (s.memRead p)).length s.output.accepts = true)
      (loop : Scans chars (p + 1) ((s.afterRead p).wrote (chars (s.memRead p)) (chars (s.memRead p)).length) e t) :
      Scans chars p s e t
  /-- The word at 0xFFFF is not zero: its characters are written, and the scan wraps. -/
  | wrap (s : State) (more : s.memRead 0xFFFF ≠ 0x0000)
      (accepted : acceptsNext (chars (s.memRead 0xFFFF)).length s.output.accepts = true) :
      Scans chars 0xFFFF s .wrapped
        ((s.afterRead 0xFFFF).wrote (chars (s.memRead 0xFFFF)) (chars (s.memRead 0xFFFF)).length)
  /-- The host accepts the first `n` characters of the word at `p` and refuses the next. -/
  | fail (p : Word) (s : State) (n : Nat) (more : s.memRead p ≠ 0x0000) (short : n < (chars (s.memRead p)).length)
      (accepted : acceptsNext n s.output.accepts = true)
      (refusedNext : (answersAfter n s.output.accepts).next Config.freeAccept = false) :
      Scans chars p s .writeFailed ((s.afterRead p).wrote ((chars (s.memRead p)).take n) (n + 1))

/-- The bytes PUTS writes for a non-zero word: `w[7:0]` (R144). -/
def lowByteOnly (w : Word) : List Byte := [bits w 7 0]

/-- The bytes PUTSP writes for a non-zero word: `w[7:0]`, then `w[15:8]` if that is not zero (R146). -/
def lowThenHigh (w : Word) : List Byte := if bits w 15 8 = 0 then [bits w 7 0] else [bits w 7 0, bits w 15 8]

/-- Memory holds the non-zero words `ws` from `p` on, inside the address space and clear of KBSR. -/
structure HoldsWords (m : Memory) (kbsr p : Word) (ws : List Word) : Prop where
  fits : p.toNat + ws.length ≤ 0x10000
  nonzero : ∀ w ∈ ws, w ≠ 0x0000
  words : ∀ k (h : k < ws.length), m.read (p + BitVec.ofNat 16 k) = ws[k]
  clear : ∀ k < ws.length, p + BitVec.ofNat 16 k ≠ kbsr

/-- The bytes of the big-endian words of an image (R191). -/
def imageBytes (ws : List Word) : List Byte := ws.flatMap fun w => [bits w 15 8, bits w 7 0]

end Sys2Proof.Machine
end

