-- ==== Sys2Proof/Certificates/Slice0/Obligations.lean ====
section
/-! DEFINITION. The statements for the provers. Each docstring names the rule of spec/ it follows. `s` is the state before,
`t` the state after. `exec` runs on the state after the fetch, so `s.pc` there is the instruction's address plus one (R80). -/

open Sys2Proof Sys2Proof.Machine

/-! ## Encoding -/

/-- Derived from R61-R63, R70: decoding the word of a well-formed instruction gives it back. -/
def Obligations.DecodeOfEncodeIsIdentity : Prop := ∀ i : Instr, i.wellFormed = true → decode (encode i) = i

/-- Derived from R63, R67, R70: every word decodes to a well-formed instruction whose own word agrees with it on every bit
that is not ignored. The bits `encode` writes where a bit is ignored are the model's choice (log 8). -/
def Obligations.EncodeOfDecodeKeepsExaminedBits : Prop :=
  ∀ w : Word, (decode w).wellFormed = true ∧ encode (decode w) &&& ~~~ ignoredBits w = w &&& ~~~ ignoredBits w

/-- R67: flipping ignored bits does not change the instruction; and only the reserved opcodes 0x8 and 0xD are the decoder's
invalid case (R66), so that every pattern of the other fourteen decodes. -/
def Obligations.IgnoredBitsDoNotChangeDecoding : Prop :=
  (∀ w m : Word, m &&& ~~~ ignoredBits w = 0 → decode (w ^^^ m) = decode w) ∧
  (∀ w : Word, (decode w).isReserved = true ↔ bits w 15 12 = 0x8 ∨ bits w 15 12 = 0xD)

/-- Words written out from the spec's encodings (95_test_vectors.md) decode to the instructions they stand for. -/
def Obligations.SpecWordsDecode : Prop :=
  decode 0x1283 = .add 1 2 3 ∧ decode 0x12BF = .addi 1 2 0x1F ∧ decode 0x54C4 = .and 2 3 4 ∧ decode 0x973F = .not 3 4 ∧
  decode 0x0402 = .br 0b010 2 ∧ decode 0xC1C0 = .jmp 7 ∧ decode 0x4805 = .jsr 5 ∧ decode 0x40C0 = .jsrr 3 ∧
  decode 0xA401 = .ldi 2 1 ∧ decode 0x697E = .ldr 4 5 0x3E ∧ decode 0x797E = .str 4 5 0x3E ∧ decode 0xF125 = .halt ∧
  decode 0xF026 = .trap 0x26 ∧ decode 0xD123 = .res 0x123

/-- R9: bit `i` of `sext_n(v)` is bit `i` of the field below the field's width and its bit n-1 above, for every width up to
16; so the two's-complement value is kept. -/
def Obligations.SignExtensionKeepsTheSignedValue : Prop :=
  ∀ (n : Nat) (v : BitVec n), 0 < n → n ≤ 16 →
    (∀ i < 16, (sext v).getLsbD i = if i < n then v.getLsbD i else v.getLsbD (n - 1)) ∧ (sext v).toInt = v.toInt

/-! ## Reset, boot and the status output -/

/-- R190: what reset leaves. -/
def Obligations.ResetLeavesTheSpecifiedState : Prop :=
  (∀ q, State.reset.reg q = 0x0000) ∧ State.reset.pc = 0x3000 ∧ State.reset.cond = 0x0002 ∧ State.reset.count = 0x0000 ∧
  State.reset.run = .running ∧ (∀ a, State.reset.mem.read a = 0x0000) ∧ State.reset.out = []

/-- Derived from R28, R29, R44, R190: the invariant holds at reset. Its clause that memory is canonical is the model's (log 1). -/
def Obligations.ResetSatisfiesTheInvariant : Prop := State.reset.Inv

/-- Derived from R191, R193: loading an image of origin `b0 * 256 + b1`, big-endian words `ws` and perhaps a final odd byte puts
the words from the origin on; words past 0xFFFF are discarded, and every other address is as before. That memory stays
canonical is about the model's own form of memory (log 1), not a rule of the spec. -/
def Obligations.ImageWordsLandFromTheOrigin : Prop :=
  ∀ (m : Memory) (b0 b1 : Byte) (ws : List Word) (odd : List Byte), m.wf = true → odd.length ≤ 1 →
    ∃ m', loadImage m (.bytes (b0 :: b1 :: (imageBytes ws ++ odd))) = .ok m' ∧ m'.wf = true ∧
      (∀ (a : Word) (k : Nat) (h : k < ws.length), a.toNat = b0.toNat * 256 + b1.toNat + k → m'.read a = ws[k]) ∧
      (∀ a : Word, (a.toNat < b0.toNat * 256 + b1.toNat ∨ b0.toNat * 256 + b1.toNat + ws.length ≤ a.toNat) →
        m'.read a = m.read a)

/-- Derived from R194: the loader's two failures; the first failing image ends the boot, no instruction runs after it, and the exit status
is the failure code. That memory keeps what earlier images loaded is the model's choice (log 14). -/
def Obligations.FailingImageEndsTheBoot : Prop :=
  (∀ m, loadImage m .unreadable = .error .imageIoError) ∧
  (∀ m bs, bs.length < 2 → loadImage m (.bytes bs) = .error .imageTruncatedError) ∧
  (∀ (s : State) (i : ImageSource) (rest : List ImageSource) (e : LoadError), loadImage s.mem i = .error e →
    (loadImages s (i :: rest)).run = .halted (.bootFailure e) ∧
    (loadImages s (i :: rest)).exitStatus = some s.params.exitFailureCode.value ∧
    (loadImages s (i :: rest)).mem = s.mem ∧
    step (loadImages s (i :: rest)) = .fault .halted)

/-- Derived from R28, R29, R44, R190, R191, R192, R196: whatever the images, booting sets no register, writes no output, takes
no input and meets the invariant; and if no image fails, an image list is loaded front to back. The invariant's clause that
memory is canonical is about the model's own form of memory (log 1), not a rule of the spec. -/
def Obligations.BootSetsMemoryOnly : Prop :=
  (∀ images, (State.boot images).Inv ∧ (State.boot images).regs = State.reset.regs ∧
    (State.boot images).input = State.reset.input ∧ (State.boot images).output = State.reset.output) ∧
  (∀ first second, (State.boot first).run = .running → State.boot (first ++ second) = loadImages (State.boot first) second)

/-- R178: zero after HALT, the same non-zero code after every fault and every boot failure, none while running. -/
def Obligations.ExitStatusIsZeroOnlyAfterHalt : Prop :=
  ∀ s : State,
    (s.run = .running → s.exitStatus = none) ∧
    (s.run = .halted .clean → s.exitStatus = some 0) ∧
    (∀ f, s.run = .halted (.fault f) → s.exitStatus = some s.params.exitFailureCode.value) ∧
    (∀ e, s.run = .halted (.bootFailure e) → s.exitStatus = some s.params.exitFailureCode.value) ∧
    s.params.exitFailureCode.value ≠ 0

/-! ## The step -/

/-- Derived from R80: a step fetches the word at PC, increments PC, and executes what the word decodes to. Away from KBSR the fetch is a
plain read; `FetchFromKeyboardStatus` says what it is there. -/
def Obligations.StepExecutesTheDecodedInstruction : Prop :=
  ∀ (s : State) (i : Instr), s.run = .running →
    (decode s.fetchWord = i → step s = exec i s.fetched) ∧
    (s.pc ≠ s.params.kbsrAddr → decode (s.mem.read s.pc) = i → step s = exec i (s.setPc (s.pc + 1)))

/-- Derived from R47, R160, R195 (95_test_vectors.md K6, K7): a fetch from KBSR refreshes it. With a key ready the word is
0x8000, so the run ends with `InvalidOpcode` at that address; without one it is a no-op that only advances PC. Besides the
keyboard words and the input nothing else changes. -/
def Obligations.FetchFromKeyboardStatus : Prop :=
  ∀ s : State, s.mem.wf = true → s.params.kbsrAddr ≠ s.params.kbdrAddr → s.run = .running → s.pc = s.params.kbsrAddr →
    (s.input.avail = true →
      ∃ t, step s = .next t ∧ t.run = .halted (.fault (.invalidOpcode s.pc 0x8000)) ∧ t.pc = s.pc ∧ SameRegs [] s t ∧
        t.cond = s.cond ∧ t.mem.read s.params.kbsrAddr = 0x8000 ∧
        t.mem.read s.params.kbdrAddr = s.input.polled.take.1.setWidth 16 ∧
        (∀ a, a ≠ s.params.kbsrAddr → a ≠ s.params.kbdrAddr → t.mem.read a = s.mem.read a) ∧
        t.input = s.input.polled.take.2 ∧ t.output = s.output ∧ SameFixed s t) ∧
    (s.input.avail = false →
      ∃ t, step s = .next t ∧ t.run = .running ∧ t.pc = s.pc + 1 ∧ SameRegs [] s t ∧ t.cond = s.cond ∧
        t.mem.read s.params.kbsrAddr = 0x0000 ∧ (∀ a, a ≠ s.params.kbsrAddr → t.mem.read a = s.mem.read a) ∧
        t.input = s.input.polled ∧ t.output = s.output ∧ SameFixed s t)

/-- Derived from R81, R189: a halted engine takes no step. -/
def Obligations.HaltedEngineTakesNoStep : Prop :=
  ∀ (s : State) (e : Exit), s.run = .halted e → step s = .fault .halted

/-- Derived from R41, R42, R114, R170, R183: a running engine always has a next state, except where a blocking read of GETC or
IN is never answered (I8; that the model then stops with `inputBlocked` is log 7). Nothing is refused. -/
def Obligations.RunningEngineStepsUnlessInputIsSilent : Prop :=
  ∀ s : State, s.run = .running →
    (∃ t, step s = .next t) ∨
    (step s = .fault .inputBlocked ∧ s.fetched.InputSilent ∧
      (decode s.fetchWord = .getc ∨ decode s.fetchWord = .inChar))

/-! ## Operate -/

/-- R100: ADD, both modes: its encoding, result, flags and frame. -/
def Obligations.AddSumsAndSetsFlags : Prop :=
  (∀ w, bits w 15 12 = 0x1 → decode w =
    if bits w 5 5 = 1 then .addi (regAt w 9) (regAt w 6) (bits w 4 0) else .add (regAt w 9) (regAt w 6) (regAt w 0)) ∧
  (∀ (s : State) (dr sr1 sr2 : Reg),
    ∃ t, exec (.add dr sr1 sr2) s = .next t ∧ WritesResult dr (s.reg sr1 + s.reg sr2) s t) ∧
  (∀ (s : State) (dr sr1 : Reg) (imm5 : BitVec 5),
    ∃ t, exec (.addi dr sr1 imm5) s = .next t ∧ WritesResult dr (s.reg sr1 + imm5.signExtend 16) s t)

/-- R101: AND, both modes. -/
def Obligations.AndMasksAndSetsFlags : Prop :=
  (∀ w, bits w 15 12 = 0x5 → decode w =
    if bits w 5 5 = 1 then .andi (regAt w 9) (regAt w 6) (bits w 4 0) else .and (regAt w 9) (regAt w 6) (regAt w 0)) ∧
  (∀ (s : State) (dr sr1 sr2 : Reg),
    ∃ t, exec (.and dr sr1 sr2) s = .next t ∧ WritesResult dr (s.reg sr1 &&& s.reg sr2) s t) ∧
  (∀ (s : State) (dr sr1 : Reg) (imm5 : BitVec 5),
    ∃ t, exec (.andi dr sr1 imm5) s = .next t ∧ WritesResult dr (s.reg sr1 &&& imm5.signExtend 16) s t)

/-- R102: NOT. -/
def Obligations.NotComplementsAndSetsFlags : Prop :=
  (∀ w, bits w 15 12 = 0x9 → decode w = .not (regAt w 9) (regAt w 6)) ∧
  (∀ (s : State) (dr sr : Reg),
    ∃ t, exec (.not dr sr) s = .next t ∧ WritesResult dr (s.reg sr ^^^ 0xFFFF) s t)

/-- Derived from R100, R101 (95_test_vectors.md W3): the two modes agree when SR2 holds the sign-extended immediate. -/
def Obligations.ImmediateAndRegisterModesAgree : Prop :=
  ∀ (s : State) (dr sr1 sr2 : Reg) (imm5 : BitVec 5), s.reg sr2 = imm5.signExtend 16 →
    exec (.addi dr sr1 imm5) s = exec (.add dr sr1 sr2) s ∧ exec (.andi dr sr1 imm5) s = exec (.and dr sr1 sr2) s

/-! ## Control transfer -/

/-- R110: BR. -/
def Obligations.BrTestsTheMaskAgainstCond : Prop :=
  (∀ w, bits w 15 12 = 0x0 → decode w = .br (bits w 11 9) (bits w 8 0)) ∧
  (∀ (s : State) (nzp : BitVec 3) (off9 : BitVec 9),
    ∃ t, exec (.br nzp off9) s = .next t ∧
      Transfers [] (if nzp.setWidth 16 &&& s.cond ≠ 0 then s.pc + off9.signExtend 16 else s.pc) s t)

/-- Derived from R25, R28, R68, R110: with a legal COND, bits n, z, p of the mask select N, Z, P; mask 000 never branches and
mask 111 always does. -/
def Obligations.BrMaskBitsSelectTheFlags : Prop :=
  ∀ (s : State) (nzp : BitVec 3) (off9 : BitVec 9), s.CondLegal →
    ∃ t, exec (.br nzp off9) s = .next t ∧
      (t.pc = if (nzp.getLsbD 2 = true ∧ s.cond = 0x0004) ∨ (nzp.getLsbD 1 = true ∧ s.cond = 0x0002) ∨
          (nzp.getLsbD 0 = true ∧ s.cond = 0x0001) then s.pc + off9.signExtend 16 else s.pc) ∧
      (nzp = 0 → t.pc = s.pc) ∧ (nzp = 0b111 → t.pc = s.pc + off9.signExtend 16)

/-- R111: JMP. -/
def Obligations.JmpGoesToTheBaseRegister : Prop :=
  (∀ w, bits w 15 12 = 0xC → decode w = .jmp (regAt w 6)) ∧
  (∀ (s : State) (base : Reg), ∃ t, exec (.jmp base) s = .next t ∧ Transfers [] (s.reg base) s t)

/-- R112: JSR. -/
def Obligations.JsrLinksAndGoesToTheOffset : Prop :=
  (∀ w, bits w 15 12 = 0x4 → bits w 11 11 = 1 → decode w = .jsr (bits w 10 0)) ∧
  (∀ (s : State) (off11 : BitVec 11),
    ∃ t, exec (.jsr off11) s = .next t ∧ Transfers [7] (s.pc + off11.signExtend 16) s t)

/-- R113: JSRR; the base register is read after R7 is written, so JSRR R7 goes to the word after it. -/
def Obligations.JsrrLinksThenReadsTheBase : Prop :=
  (∀ w, bits w 15 12 = 0x4 → bits w 11 11 = 0 → decode w = .jsrr (regAt w 6)) ∧
  (∀ (s : State) (base : Reg),
    ∃ t, exec (.jsrr base) s = .next t ∧ Transfers [7] (if base = 7 then s.pc else s.reg base) s t)

/-! ## Memory and the keyboard registers -/

/-- Derived from R42: a write stores the word and does nothing else, at the keyboard addresses too. That memory stays canonical
is about the model's own form of memory (log 1), not a rule of the spec. -/
def Obligations.WriteChangesItsWordOnly : Prop :=
  ∀ (s : State) (a v : Word), s.mem.wf = true → StoresWord a v s (s.memWrite a v) ∧ (s.memWrite a v).mem.wf = true

/-- The model's memory form (log 1): canonical memories that read alike are equal. -/
def Obligations.CanonicalMemoriesThatReadAlikeAreEqual : Prop :=
  ∀ m m' : Memory, m.wf = true → m'.wf = true → (∀ a, m.read a = m'.read a) → m = m'

/-- R45: a read of KBSR polls and refreshes, and returns the refreshed word. The byte taken is the oldest one queued, and the
next read gets the byte after it; at end of input the poll answers false. -/
def Obligations.KeyboardStatusReadRefreshes : Prop :=
  ∀ s : State, s.mem.wf = true → s.params.kbsrAddr ≠ s.params.kbdrAddr →
    let t := s.afterRead s.params.kbsrAddr
    (s.input.avail = true →
      s.memRead s.params.kbsrAddr = 0x8000 ∧ t.mem.read s.params.kbsrAddr = 0x8000 ∧
      t.mem.read s.params.kbdrAddr = s.input.polled.take.1.setWidth 16 ∧ t.input = s.input.polled.take.2 ∧
      (∀ a, a ≠ s.params.kbsrAddr → a ≠ s.params.kbdrAddr → t.mem.read a = s.mem.read a)) ∧
    (s.input.avail = false →
      s.memRead s.params.kbsrAddr = 0x0000 ∧ t.mem.read s.params.kbsrAddr = 0x0000 ∧ t.input = s.input.polled ∧
      (∀ a, a ≠ s.params.kbsrAddr → t.mem.read a = s.mem.read a)) ∧
    (∀ b rest, s.input.pending = b :: rest → s.input.polled.take.1 = b ∧ s.input.polled.take.2.pending = rest) ∧
    (s.input.pending = [] → s.input.tail = .ended → s.input.avail = false) ∧
    t.regs = s.regs ∧ t.run = s.run ∧ t.output = s.output ∧ t.params = s.params

/-- R46: a read of KBDR is plain. -/
def Obligations.KeyboardDataReadIsPlain : Prop :=
  ∀ s : State, s.params.kbsrAddr ≠ s.params.kbdrAddr →
    s.memRead s.params.kbdrAddr = s.mem.read s.params.kbdrAddr ∧ s.afterRead s.params.kbdrAddr = s

/-- Derived from R45, R183, I8, I9: a poll answers true only if a byte can be read at once, and then the byte taken is the
oldest queued one; a blocking read gives the oldest queued byte, or end-of-input, or is never answered. The queue, its
three ways to go on and the draws are the model's form of the host oracle (log 5). -/
def Obligations.PollAndReadAnswers : Prop :=
  ∀ c : ConsoleInput,
    (c.pending = [] → c.tail ≠ .free → c.avail = false) ∧
    (∀ b rest, c.pending = b :: rest →
      c.avail = c.polls.next Config.freePoll ∧ c.polled.take.1 = b ∧ c.polled.take.2.pending = rest ∧
      ∃ c', c.read = some (some b, c') ∧ c'.pending = rest ∧ c'.tail = c.tail) ∧
    (c.pending = [] → c.tail = .ended → c.read = some (none, c)) ∧
    (c.read = none ↔ c.pending = [] ∧ c.tail = .silent)

/-! ## Loads -/

/-- R120: LD. The word is read by `MemRead`; away from KBSR that is the stored word and nothing else changes. -/
def Obligations.LdLoadsPcRelative : Prop :=
  (∀ w, bits w 15 12 = 0x2 → decode w = .ld (regAt w 9) (bits w 8 0)) ∧
  (∀ (s : State) (dr : Reg) (off9 : BitVec 9), ∃ t, exec (.ld dr off9) s = .next t ∧
    WritesResult dr (s.memRead (s.pc + off9.signExtend 16)) (s.afterRead (s.pc + off9.signExtend 16)) t ∧
    (s.pc + off9.signExtend 16 ≠ s.params.kbsrAddr → WritesResult dr (s.mem.read (s.pc + off9.signExtend 16)) s t))

/-- R121: LDI: two reads, each by `MemRead`, the pointer first. -/
def Obligations.LdiLoadsThroughThePointer : Prop :=
  (∀ w, bits w 15 12 = 0xA → decode w = .ldi (regAt w 9) (bits w 8 0)) ∧
  (∀ (s : State) (dr : Reg) (off9 : BitVec 9), ∃ t, exec (.ldi dr off9) s = .next t ∧
    (∀ ea p mid, ea = s.pc + off9.signExtend 16 → p = s.memRead ea → mid = s.afterRead ea →
      WritesResult dr (mid.memRead p) (mid.afterRead p) t) ∧
    (∀ ea, ea = s.pc + off9.signExtend 16 → ea ≠ s.params.kbsrAddr → s.mem.read ea ≠ s.params.kbsrAddr →
      WritesResult dr (s.mem.read (s.mem.read ea)) s t))

/-- R122: LDR. -/
def Obligations.LdrLoadsBasePlusOffset : Prop :=
  (∀ w, bits w 15 12 = 0x6 → decode w = .ldr (regAt w 9) (regAt w 6) (bits w 5 0)) ∧
  (∀ (s : State) (dr base : Reg) (off6 : BitVec 6), ∃ t, exec (.ldr dr base off6) s = .next t ∧
    WritesResult dr (s.memRead (s.reg base + off6.signExtend 16)) (s.afterRead (s.reg base + off6.signExtend 16)) t ∧
    (s.reg base + off6.signExtend 16 ≠ s.params.kbsrAddr →
      WritesResult dr (s.mem.read (s.reg base + off6.signExtend 16)) s t))

/-- R123: LEA: flags from the address; no read, so no refresh at KBSR. -/
def Obligations.LeaGivesTheAddressAndItsFlags : Prop :=
  (∀ w, bits w 15 12 = 0xE → decode w = .lea (regAt w 9) (bits w 8 0)) ∧
  (∀ (s : State) (dr : Reg) (off9 : BitVec 9),
    ∃ t, exec (.lea dr off9) s = .next t ∧ WritesResult dr (s.pc + off9.signExtend 16) s t)

/-! ## Stores -/

/-- R130: ST. -/
def Obligations.StStoresPcRelative : Prop :=
  (∀ w, bits w 15 12 = 0x3 → decode w = .st (regAt w 9) (bits w 8 0)) ∧
  (∀ (s : State) (sr : Reg) (off9 : BitVec 9), s.mem.wf = true →
    ∃ t, exec (.st sr off9) s = .next t ∧ StoresWord (s.pc + off9.signExtend 16) (s.reg sr) s t)

/-- R131: STI: the pointer is read by `MemRead`, so it refreshes at KBSR; then the word is stored where it points. -/
def Obligations.StiStoresThroughThePointer : Prop :=
  (∀ w, bits w 15 12 = 0xB → decode w = .sti (regAt w 9) (bits w 8 0)) ∧
  (∀ (s : State) (sr : Reg) (off9 : BitVec 9), s.mem.wf = true → ∃ t, exec (.sti sr off9) s = .next t ∧
    StoresWord (s.memRead (s.pc + off9.signExtend 16)) (s.reg sr) (s.afterRead (s.pc + off9.signExtend 16)) t ∧
    (s.pc + off9.signExtend 16 ≠ s.params.kbsrAddr →
      StoresWord (s.mem.read (s.pc + off9.signExtend 16)) (s.reg sr) s t))

/-- R132: STR. -/
def Obligations.StrStoresBasePlusOffset : Prop :=
  (∀ w, bits w 15 12 = 0x7 → decode w = .str (regAt w 9) (regAt w 6) (bits w 5 0)) ∧
  (∀ (s : State) (sr base : Reg) (off6 : BitVec 6), s.mem.wf = true →
    ∃ t, exec (.str sr base off6) s = .next t ∧ StoresWord (s.reg base + off6.signExtend 16) (s.reg sr) s t)

/-- Derived from R58, R130: a word ST stores at the next address is the instruction the next step executes. -/
def Obligations.StoredWordIsFetchedNext : Prop :=
  ∀ (s : State) (sr : Reg), s.mem.wf = true → s.run = .running → s.pc ≠ s.params.kbsrAddr →
    s.pc + 1 ≠ s.params.kbsrAddr → decode (s.mem.read s.pc) = .st sr 0 →
    ∃ t, step s = .next t ∧ step t = exec (decode (s.reg sr)) (t.setPc (s.pc + 2))

/-! ## TRAP and the service routines -/

/-- R69, R173: the dispatch of R140. Bits 7:0 select; a service vector runs the routine's own row; any other vector raises
`UnimplementedTrap`, before any console access. -/
def Obligations.TrapSelectsByItsVector : Prop :=
  (∀ w, bits w 15 12 = 0xF → decode w =
    if bits w 7 0 = 0x20 then .getc else if bits w 7 0 = 0x21 then .out else if bits w 7 0 = 0x22 then .puts
    else if bits w 7 0 = 0x23 then .inChar else if bits w 7 0 = 0x24 then .putsp else if bits w 7 0 = 0x25 then .halt
    else .trap (bits w 7 0)) ∧
  (∀ s : State, exec (.trap 0x20) s = exec .getc s ∧ exec (.trap 0x21) s = exec .out s ∧ exec (.trap 0x22) s = exec .puts s ∧
    exec (.trap 0x23) s = exec .inChar s ∧ exec (.trap 0x24) s = exec .putsp s ∧ exec (.trap 0x25) s = exec .halt s) ∧
  (∀ (s : State) (v : Byte), (v < 0x20 ∨ 0x25 < v) →
    ∃ t, exec (.trap v) s = .next t ∧ TakesFault (.unimplementedTrap (s.pc - 1) v) s t ∧ t.mem = s.mem ∧
      t.input = s.input ∧ t.output = s.output)

/-- R142: GETC: a byte goes to R0, zero-extended, without echo and without flags; end-of-input raises `ConsoleIoError`. -/
def Obligations.GetcReadsAByteIntoR0 : Prop :=
  ∀ s : State,
    (∀ b c, s.input.read = some (some b, c) →
      ∃ t, exec .getc s = .next t ∧ t.reg 0 = b.setWidth 16 ∧ TrapRegs [0] s t ∧ t.cond = s.cond ∧ SameMemory s t ∧
        t.run = s.run ∧ t.input = c ∧ t.output = s.output) ∧
    (∀ c, s.input.read = some (none, c) →
      ∃ t, exec .getc s = .next t ∧ TakesFault (.consoleIoError (s.pc - 1) .getc .read) s t ∧ SameMemory s t ∧
        t.input = c ∧ t.output = s.output)

/-- R143: OUT: the low byte of R0 is written; a refused write raises `ConsoleIoError`. -/
def Obligations.OutWritesTheLowByteOfR0 : Prop :=
  ∀ s : State,
    (s.output.accepts.next Config.freeAccept = true →
      ∃ t, exec .out s = .next t ∧ t.out = s.out ++ [bits (s.reg 0) 7 0] ∧ TrapRegs [] s t ∧ t.cond = s.cond ∧
        SameMemory s t ∧ t.run = s.run ∧ t.input = s.input) ∧
    (s.output.accepts.next Config.freeAccept = false →
      ∃ t, exec .out s = .next t ∧ t.out = s.out ∧ TakesFault (.consoleIoError (s.pc - 1) .out .write) s t ∧
        SameMemory s t ∧ t.input = s.input)

/-- Derived from R144: PUTS on a string that memory holds: one character per word, the low byte, up to the zero word. -/
def Obligations.PutsWritesTheString : Prop :=
  ∀ (s : State) (ws : List Word), HoldsWords s.mem s.params.kbsrAddr (s.reg 0) ws →
    (s.reg 0).toNat + ws.length ≤ 0xFFFF → s.mem.read (s.reg 0 + BitVec.ofNat 16 ws.length) = 0x0000 →
    s.reg 0 + BitVec.ofNat 16 ws.length ≠ s.params.kbsrAddr → acceptsNext ws.length s.output.accepts = true →
    ∃ t, exec .puts s = .next t ∧ t.out = s.out ++ ws.flatMap lowByteOnly ∧ TrapRegs [] s t ∧ t.cond = s.cond ∧
      SameMemory s t ∧ t.run = s.run ∧ t.input = s.input

/-- Derived from R146: PUTSP on a string that memory holds: two characters per word, low byte first, a zero high byte not
written. -/
def Obligations.PutspWritesThePackedString : Prop :=
  ∀ (s : State) (ws : List Word), HoldsWords s.mem s.params.kbsrAddr (s.reg 0) ws →
    (s.reg 0).toNat + ws.length ≤ 0xFFFF → s.mem.read (s.reg 0 + BitVec.ofNat 16 ws.length) = 0x0000 →
    s.reg 0 + BitVec.ofNat 16 ws.length ≠ s.params.kbsrAddr →
    acceptsNext (ws.flatMap lowThenHigh).length s.output.accepts = true →
    ∃ t, exec .putsp s = .next t ∧ t.out = s.out ++ ws.flatMap lowThenHigh ∧ TrapRegs [] s t ∧ t.cond = s.cond ∧
      SameMemory s t ∧ t.run = s.run ∧ t.input = s.input

/-- Derived from R148: a string that reaches 0xFFFF without a zero word: its characters are written, then `StringScanWrap` is
raised. -/
def Obligations.StringPastTheTopRaisesScanWrap : Prop :=
  ∀ (s : State) (ws : List Word), HoldsWords s.mem s.params.kbsrAddr (s.reg 0) ws →
    (s.reg 0).toNat + ws.length = 0x10000 →
    (acceptsNext ws.length s.output.accepts = true →
      ∃ t, exec .puts s = .next t ∧ TakesFault (.stringScanWrap (s.pc - 1) (s.reg 0)) s t ∧
        t.out = s.out ++ ws.flatMap lowByteOnly ∧ SameMemory s t ∧ t.input = s.input) ∧
    (acceptsNext (ws.flatMap lowThenHigh).length s.output.accepts = true →
      ∃ t, exec .putsp s = .next t ∧ TakesFault (.stringScanWrap (s.pc - 1) (s.reg 0)) s t ∧
        t.out = s.out ++ ws.flatMap lowThenHigh ∧ SameMemory s t ∧ t.input = s.input)

/-- R144, R146, R148 (with R47, R174): PUTS and PUTSP follow the loop of their rules on every string, one that passes
over KBSR and one whose writing fails among them: if the loop (`Scans`) ends at a zero word they complete in the state it
reaches; if it wraps or a write fails they take that fault. -/
def Obligations.StringRoutinesFollowTheLoop : Prop :=
  ∀ (s u : State) (e : ScanEnd) (i : Instr) (r : Routine) (chars : Word → List Byte),
    (i = .puts ∧ r = .puts ∧ chars = lowByteOnly) ∨ (i = .putsp ∧ r = .putsp ∧ chars = lowThenHigh) →
    Scans chars (s.reg 0) (if s.params.trapLinksR7 then s.setReg 7 s.pc else s) e u →
    ∃ t, exec i s = .next t ∧
      (e = .zeroWord → t = u) ∧
      (e ≠ .zeroWord → t.mem = u.mem ∧ t.input = u.input ∧ t.output = u.output) ∧
      (e = .wrapped → TakesFault (.stringScanWrap (s.pc - 1) (s.reg 0)) s t) ∧
      (e = .writeFailed → TakesFault (.consoleIoError (s.pc - 1) r .write) s t)

/-- R145: IN: the prompt, the read, the echo, R0 and the flags; end-of-input raises after the prompt. A refused write is
`RefusedWriteRaisesConsoleIoError`. -/
def Obligations.InPromptsReadsEchoesAndSetsFlags : Prop :=
  ∀ s : State,
    (∀ b c, s.input.read = some (some b, c) → acceptsNext (s.params.inPrompt.length + 1) s.output.accepts = true →
      ∃ t, exec .inChar s = .next t ∧ t.out = s.out ++ s.params.inPrompt ++ [b] ∧ t.reg 0 = b.setWidth 16 ∧
        FlagsReflect (b.setWidth 16) t.cond ∧ TrapRegs [0] s t ∧ SameMemory s t ∧ t.run = s.run ∧ t.input = c) ∧
    (∀ c, s.input.read = some (none, c) → acceptsNext s.params.inPrompt.length s.output.accepts = true →
      ∃ t, exec .inChar s = .next t ∧ t.out = s.out ++ s.params.inPrompt ∧
        TakesFault (.consoleIoError (s.pc - 1) .inChar .read) s t ∧ SameMemory s t ∧ t.input = c)

/-- Derived from R183, I8: where the host never answers, GETC and IN have no successor. That the model then stops with
`inputBlocked`, IN once its prompt has been accepted, is the model's form of "stuck" (log 7). -/
def Obligations.UnansweredReadHasNoSuccessor : Prop :=
  ∀ s : State, s.InputSilent →
    exec .getc s = .fault .inputBlocked ∧
    (acceptsNext s.params.inPrompt.length s.output.accepts = true → exec .inChar s = .fault .inputBlocked)

/-- R147: HALT: the announcement, then a clean exit; PC stays one past the TRAP and nothing else changes. -/
def Obligations.HaltAnnouncesAndEndsCleanly : Prop :=
  ∀ s : State, acceptsNext s.params.haltAnnounce.length s.output.accepts = true →
    ∃ t, exec .halt s = .next t ∧ t.run = .halted .clean ∧ t.out = s.out ++ s.params.haltAnnounce ∧ TrapRegs [] s t ∧
      t.cond = s.cond ∧ SameMemory s t ∧ t.input = s.input ∧ t.exitStatus = some 0

/-- Derived from R174, R176, R177: the first refused write of HALT's announcement, of IN's prompt or of IN's echo ends the run
with `ConsoleIoError`; the bytes accepted before it stay written; a prompt that fails takes no input. -/
def Obligations.RefusedWriteRaisesConsoleIoError : Prop :=
  ∀ (s : State) (n : Nat), acceptsNext n s.output.accepts = true →
    (answersAfter n s.output.accepts).next Config.freeAccept = false →
    (n < s.params.haltAnnounce.length →
      ∃ t, exec .halt s = .next t ∧ TakesFault (.consoleIoError (s.pc - 1) .halt .write) s t ∧
        t.out = s.out ++ s.params.haltAnnounce.take n ∧ SameMemory s t ∧ t.input = s.input) ∧
    (n < s.params.inPrompt.length →
      ∃ t, exec .inChar s = .next t ∧ TakesFault (.consoleIoError (s.pc - 1) .inChar .write) s t ∧
        t.out = s.out ++ s.params.inPrompt.take n ∧ SameMemory s t ∧ t.input = s.input) ∧
    (∀ b c, n = s.params.inPrompt.length → s.input.read = some (some b, c) →
      ∃ t, exec .inChar s = .next t ∧ TakesFault (.consoleIoError (s.pc - 1) .inChar .write) s t ∧
        t.out = s.out ++ s.params.inPrompt ∧ SameMemory s t ∧ t.input = c)

/-! ## Reserved opcodes -/

/-- R160, R161: RTI and RES raise `InvalidOpcode` with the address and the whole word, and leave everything else as it was. -/
def Obligations.ReservedOpcodesRaiseInvalidOpcode : Prop :=
  (∀ w, bits w 15 12 = 0x8 → decode w = .rti (bits w 11 0)) ∧ (∀ w, bits w 15 12 = 0xD → decode w = .res (bits w 11 0)) ∧
  (∀ (s : State) (w : Word), bits w 15 12 = 0x8 →
    ∃ t, exec (.rti (bits w 11 0)) s = .next t ∧ TakesFault (.invalidOpcode (s.pc - 1) w) s t ∧ t.mem = s.mem ∧
      t.input = s.input ∧ t.output = s.output) ∧
  (∀ (s : State) (w : Word), bits w 15 12 = 0xD →
    ∃ t, exec (.res (bits w 11 0)) s = .next t ∧ TakesFault (.invalidOpcode (s.pc - 1) w) s t ∧ t.mem = s.mem ∧
      t.input = s.input ∧ t.output = s.output)

/-! ## The whole machine -/

/-- Derived from R28, R29, R44: every step keeps the invariant: memory canonical (the model's form, log 1), COND one of N, Z,
P, the counter 0, KBSR and KBDR apart. -/
def Obligations.StepKeepsTheInvariant : Prop := ∀ s t : State, s.Inv → step s = .next t → t.Inv

/-- Derived from R29, R33, R34, R183: no step changes the counter or the parameters, takes back output, or puts back or skips
queued input. -/
def Obligations.OutputOnlyGrowsAndInputIsTakenInOrder : Prop :=
  ∀ s t : State, step s = .next t →
    t.count = s.count ∧ t.params = s.params ∧ (∃ bs, t.out = s.out ++ bs) ∧ (∃ bs, s.input.pending = bs ++ t.input.pending)

/-- Derived from R133, R150: an instruction that is no store changes no word of memory but the two keyboard words. -/
def Obligations.OnlyStoresWriteMemory : Prop :=
  ∀ (i : Instr) (s t : State), isStore i = false → exec i s = .next t →
    ∀ a, a ≠ s.params.kbsrAddr → a ≠ s.params.kbdrAddr → t.mem.read a = s.mem.read a

/-- Derived from R26: only ADD, AND, NOT, LD, LDI, LDR, LEA and the IN routine write COND. -/
def Obligations.OnlyListedInstructionsWriteCond : Prop :=
  ∀ (i : Instr) (s t : State), writesCond i = false → exec i s = .next t → t.cond = s.cond

/-- Derived from R22, R141: an instruction writes no general-purpose register but those R22 lists for it. -/
def Obligations.OnlyListedRegistersAreWritten : Prop :=
  ∀ (i : Instr) (s t : State), exec i s = .next t → SameRegs (regsWritten s.params.trapLinksR7 i) s t

/-- Derived from R24, R103, R140: unless it faults, an instruction that is no control transfer leaves PC at the next word. -/
def Obligations.OnlyControlTransfersWritePc : Prop :=
  ∀ (i : Instr) (s t : State), writesPc i = false → exec i s = .next t → (∀ f, t.run ≠ .halted (.fault f)) → t.pc = s.pc

/-- Derived from R176: whichever fault a step raises, all registers hold what they held before the fetch, PC included; memory
holds what it held but for the keyboard words, and those too unless the step read KBSR (by its fetch, or by PUTS or PUTSP);
output written stays and input taken stays taken. -/
def Obligations.EveryFaultIsPrecise : Prop :=
  ∀ (s t : State) (f : FaultKind), s.run = .running → step s = .next t → t.run = .halted (.fault f) →
    SameRegs [] s t ∧ t.pc = s.pc ∧ t.cond = s.cond ∧ t.count = s.count ∧
    (∀ a, a ≠ s.params.kbsrAddr → a ≠ s.params.kbdrAddr → t.mem.read a = s.mem.read a) ∧
    (s.pc ≠ s.params.kbsrAddr → decode s.fetchWord ≠ .puts → decode s.fetchWord ≠ .putsp → SameMemory s t) ∧
    (∃ bs, t.out = s.out ++ bs) ∧ (∃ bs, s.input.pending = bs ++ t.input.pending)

/-- Derived from R171: each fault kind comes from the instructions R171 names for it, and records that instruction's address
and the information R171 names. -/
def Obligations.EveryFaultHasItsListedCause : Prop :=
  ∀ (s t : State) (f : FaultKind), s.run = .running → step s = .next t → t.run = .halted (.fault f) →
    (∀ a w, f = .invalidOpcode a w → a = s.pc ∧ w = s.fetchWord ∧ (decode w).isReserved = true) ∧
    (∀ a v, f = .unimplementedTrap a v → a = s.pc ∧ decode s.fetchWord = .trap v ∧ (v < 0x20 ∨ 0x25 < v)) ∧
    (∀ a r, f = .consoleIoError a r .read → a = s.pc ∧
      ((r = .getc ∧ decode s.fetchWord = .getc) ∨ (r = .inChar ∧ decode s.fetchWord = .inChar))) ∧
    (∀ a r, f = .consoleIoError a r .write → a = s.pc ∧
      ((r = .out ∧ decode s.fetchWord = .out) ∨ (r = .puts ∧ decode s.fetchWord = .puts) ∨
        (r = .inChar ∧ decode s.fetchWord = .inChar) ∨ (r = .putsp ∧ decode s.fetchWord = .putsp) ∨
        (r = .halt ∧ decode s.fetchWord = .halt))) ∧
    (∀ a p, f = .stringScanWrap a p → a = s.pc ∧ p = s.reg 0 ∧
      (decode s.fetchWord = .puts ∨ decode s.fetchWord = .putsp))

/-- Derived from R31, R147, R170: the engine stops cleanly only by HALT, and no step ends in a boot failure. -/
def Obligations.OnlyHaltEndsTheRunCleanly : Prop :=
  ∀ s t : State, s.run = .running → step s = .next t →
    (t.run = .halted .clean → decode s.fetchWord = .halt) ∧ (∀ e, t.run ≠ .halted (.bootFailure e))
end

