-- ==== Sys2Proof/Laws/State.lean ====
section
/-! SUPPORT. One lemma per field per update of State: later proofs rewrite by these and unfold no record update. -/

namespace Sys2Proof.Machine

/-! ## Register updates and the eleven slots (R20: "Its operations are total"; the slots do not alias) -/

theorem RegFile.get_set (f : RegFile) (r r' : RegId) (v : Word) :
    (f.set r v).get r' = if r' = r then v else f.get r' := by
  cases r <;> cases r' <;> simp [RegFile.get, RegFile.set, Vector.getElem_set]
  case gpr.gpr r r' => simp [Fin.ext_iff, eq_comm]

@[simp] theorem State.reg_setReg (s : State) (r r' : Reg) (v : Word) :
    (s.setReg r v).reg r' = if r' = r then v else s.reg r' := by
  simp [State.reg, State.setReg, RegFile.get_set]

@[simp] theorem State.out_eq (s : State) : s.out = s.output.bytes := rfl

/-! ## setReg -/

@[simp] theorem State.pc_setReg (s : State) (r : Reg) (v : Word) :
    (s.setReg r v).pc = s.pc := rfl

@[simp] theorem State.cond_setReg (s : State) (r : Reg) (v : Word) :
    (s.setReg r v).cond = s.cond := rfl

@[simp] theorem State.count_setReg (s : State) (r : Reg) (v : Word) :
    (s.setReg r v).count = s.count := rfl

@[simp] theorem State.mem_setReg (s : State) (r : Reg) (v : Word) :
    (s.setReg r v).mem = s.mem := rfl

@[simp] theorem State.run_setReg (s : State) (r : Reg) (v : Word) :
    (s.setReg r v).run = s.run := rfl

@[simp] theorem State.input_setReg (s : State) (r : Reg) (v : Word) :
    (s.setReg r v).input = s.input := rfl

@[simp] theorem State.output_setReg (s : State) (r : Reg) (v : Word) :
    (s.setReg r v).output = s.output := rfl

@[simp] theorem State.params_setReg (s : State) (r : Reg) (v : Word) :
    (s.setReg r v).params = s.params := rfl

/-! ## setPc -/

@[simp] theorem State.reg_setPc (s : State) (v : Word) (q : Reg) :
    (s.setPc v).reg q = s.reg q := rfl

@[simp] theorem State.pc_setPc (s : State) (v : Word) :
    (s.setPc v).pc = v := rfl

@[simp] theorem State.cond_setPc (s : State) (v : Word) :
    (s.setPc v).cond = s.cond := rfl

@[simp] theorem State.count_setPc (s : State) (v : Word) :
    (s.setPc v).count = s.count := rfl

@[simp] theorem State.mem_setPc (s : State) (v : Word) :
    (s.setPc v).mem = s.mem := rfl

@[simp] theorem State.run_setPc (s : State) (v : Word) :
    (s.setPc v).run = s.run := rfl

@[simp] theorem State.input_setPc (s : State) (v : Word) :
    (s.setPc v).input = s.input := rfl

@[simp] theorem State.output_setPc (s : State) (v : Word) :
    (s.setPc v).output = s.output := rfl

@[simp] theorem State.params_setPc (s : State) (v : Word) :
    (s.setPc v).params = s.params := rfl

/-! ## setCond -/

@[simp] theorem State.reg_setCond (s : State) (v : Word) (q : Reg) :
    (s.setCond v).reg q = s.reg q := rfl

@[simp] theorem State.pc_setCond (s : State) (v : Word) :
    (s.setCond v).pc = s.pc := rfl

@[simp] theorem State.cond_setCond (s : State) (v : Word) :
    (s.setCond v).cond = v := rfl

@[simp] theorem State.count_setCond (s : State) (v : Word) :
    (s.setCond v).count = s.count := rfl

@[simp] theorem State.mem_setCond (s : State) (v : Word) :
    (s.setCond v).mem = s.mem := rfl

@[simp] theorem State.run_setCond (s : State) (v : Word) :
    (s.setCond v).run = s.run := rfl

@[simp] theorem State.input_setCond (s : State) (v : Word) :
    (s.setCond v).input = s.input := rfl

@[simp] theorem State.output_setCond (s : State) (v : Word) :
    (s.setCond v).output = s.output := rfl

@[simp] theorem State.params_setCond (s : State) (v : Word) :
    (s.setCond v).params = s.params := rfl

/-! ## setMem -/

@[simp] theorem State.reg_setMem (s : State) (m : Memory) (q : Reg) :
    (s.setMem m).reg q = s.reg q := rfl

@[simp] theorem State.pc_setMem (s : State) (m : Memory) :
    (s.setMem m).pc = s.pc := rfl

@[simp] theorem State.cond_setMem (s : State) (m : Memory) :
    (s.setMem m).cond = s.cond := rfl

@[simp] theorem State.count_setMem (s : State) (m : Memory) :
    (s.setMem m).count = s.count := rfl

@[simp] theorem State.mem_setMem (s : State) (m : Memory) :
    (s.setMem m).mem = m := rfl

@[simp] theorem State.run_setMem (s : State) (m : Memory) :
    (s.setMem m).run = s.run := rfl

@[simp] theorem State.input_setMem (s : State) (m : Memory) :
    (s.setMem m).input = s.input := rfl

@[simp] theorem State.output_setMem (s : State) (m : Memory) :
    (s.setMem m).output = s.output := rfl

@[simp] theorem State.params_setMem (s : State) (m : Memory) :
    (s.setMem m).params = s.params := rfl

/-! ## setInput -/

@[simp] theorem State.reg_setInput (s : State) (c : ConsoleInput) (q : Reg) :
    (s.setInput c).reg q = s.reg q := rfl

@[simp] theorem State.pc_setInput (s : State) (c : ConsoleInput) :
    (s.setInput c).pc = s.pc := rfl

@[simp] theorem State.cond_setInput (s : State) (c : ConsoleInput) :
    (s.setInput c).cond = s.cond := rfl

@[simp] theorem State.count_setInput (s : State) (c : ConsoleInput) :
    (s.setInput c).count = s.count := rfl

@[simp] theorem State.mem_setInput (s : State) (c : ConsoleInput) :
    (s.setInput c).mem = s.mem := rfl

@[simp] theorem State.run_setInput (s : State) (c : ConsoleInput) :
    (s.setInput c).run = s.run := rfl

@[simp] theorem State.input_setInput (s : State) (c : ConsoleInput) :
    (s.setInput c).input = c := rfl

@[simp] theorem State.output_setInput (s : State) (c : ConsoleInput) :
    (s.setInput c).output = s.output := rfl

@[simp] theorem State.params_setInput (s : State) (c : ConsoleInput) :
    (s.setInput c).params = s.params := rfl

/-! ## setOutput -/

@[simp] theorem State.reg_setOutput (s : State) (c : ConsoleOutput) (q : Reg) :
    (s.setOutput c).reg q = s.reg q := rfl

@[simp] theorem State.pc_setOutput (s : State) (c : ConsoleOutput) :
    (s.setOutput c).pc = s.pc := rfl

@[simp] theorem State.cond_setOutput (s : State) (c : ConsoleOutput) :
    (s.setOutput c).cond = s.cond := rfl

@[simp] theorem State.count_setOutput (s : State) (c : ConsoleOutput) :
    (s.setOutput c).count = s.count := rfl

@[simp] theorem State.mem_setOutput (s : State) (c : ConsoleOutput) :
    (s.setOutput c).mem = s.mem := rfl

@[simp] theorem State.run_setOutput (s : State) (c : ConsoleOutput) :
    (s.setOutput c).run = s.run := rfl

@[simp] theorem State.input_setOutput (s : State) (c : ConsoleOutput) :
    (s.setOutput c).input = s.input := rfl

@[simp] theorem State.output_setOutput (s : State) (c : ConsoleOutput) :
    (s.setOutput c).output = c := rfl

@[simp] theorem State.params_setOutput (s : State) (c : ConsoleOutput) :
    (s.setOutput c).params = s.params := rfl

/-! ## setHalted -/

@[simp] theorem State.reg_setHalted (s : State) (e : Exit) (q : Reg) :
    (s.setHalted e).reg q = s.reg q := rfl

@[simp] theorem State.pc_setHalted (s : State) (e : Exit) :
    (s.setHalted e).pc = s.pc := rfl

@[simp] theorem State.cond_setHalted (s : State) (e : Exit) :
    (s.setHalted e).cond = s.cond := rfl

@[simp] theorem State.count_setHalted (s : State) (e : Exit) :
    (s.setHalted e).count = s.count := rfl

@[simp] theorem State.mem_setHalted (s : State) (e : Exit) :
    (s.setHalted e).mem = s.mem := rfl

@[simp] theorem State.run_setHalted (s : State) (e : Exit) :
    (s.setHalted e).run = .halted e := rfl

@[simp] theorem State.input_setHalted (s : State) (e : Exit) :
    (s.setHalted e).input = s.input := rfl

@[simp] theorem State.output_setHalted (s : State) (e : Exit) :
    (s.setHalted e).output = s.output := rfl

@[simp] theorem State.params_setHalted (s : State) (e : Exit) :
    (s.setHalted e).params = s.params := rfl

/-! ## Shared updates built from these -/

@[simp] theorem State.memWrite_eq (s : State) (a v : Word) : s.memWrite a v = s.setMem (s.mem.write a v) := rfl

@[simp] theorem State.haltClean_eq (s : State) : s.haltClean = s.setHalted .clean := rfl

theorem setcc_eq (v : Word) (s : State) : setcc v s = s.setCond (flagOf v) := rfl

@[simp] theorem reg_writeResult (dr q : Reg) (v : Word) (s : State) :
    (writeResult dr v s).reg q = if q = dr then v else s.reg q := by simp [writeResult, setcc]

@[simp] theorem cond_writeResult (dr : Reg) (v : Word) (s : State) : (writeResult dr v s).cond = flagOf v := rfl

@[simp] theorem pc_writeResult (dr : Reg) (v : Word) (s : State) : (writeResult dr v s).pc = s.pc := rfl

@[simp] theorem count_writeResult (dr : Reg) (v : Word) (s : State) : (writeResult dr v s).count = s.count := rfl

@[simp] theorem mem_writeResult (dr : Reg) (v : Word) (s : State) : (writeResult dr v s).mem = s.mem := rfl

@[simp] theorem run_writeResult (dr : Reg) (v : Word) (s : State) : (writeResult dr v s).run = s.run := rfl

@[simp] theorem input_writeResult (dr : Reg) (v : Word) (s : State) : (writeResult dr v s).input = s.input := rfl

@[simp] theorem output_writeResult (dr : Reg) (v : Word) (s : State) : (writeResult dr v s).output = s.output := rfl

@[simp] theorem params_writeResult (dr : Reg) (v : Word) (s : State) : (writeResult dr v s).params = s.params := rfl

/-! ## raiseFault (R176): the registers of `start`, the memory and console of `s` -/

@[simp] theorem reg_raiseFault (start s : State) (f : FaultKind) (q : Reg) :
    (raiseFault start s f).reg q = start.reg q := rfl

@[simp] theorem pc_raiseFault (start s : State) (f : FaultKind) :
    (raiseFault start s f).pc = start.instrAddr := rfl

@[simp] theorem cond_raiseFault (start s : State) (f : FaultKind) :
    (raiseFault start s f).cond = start.cond := rfl

@[simp] theorem count_raiseFault (start s : State) (f : FaultKind) :
    (raiseFault start s f).count = start.count := rfl

@[simp] theorem mem_raiseFault (start s : State) (f : FaultKind) :
    (raiseFault start s f).mem = s.mem := rfl

@[simp] theorem run_raiseFault (start s : State) (f : FaultKind) :
    (raiseFault start s f).run = .halted (.fault f) := rfl

@[simp] theorem input_raiseFault (start s : State) (f : FaultKind) :
    (raiseFault start s f).input = s.input := rfl

@[simp] theorem output_raiseFault (start s : State) (f : FaultKind) :
    (raiseFault start s f).output = s.output := rfl

@[simp] theorem params_raiseFault (start s : State) (f : FaultKind) :
    (raiseFault start s f).params = s.params := rfl

end Sys2Proof.Machine
end

