-- ==== Sys2Proof/Laws/Bits.lean ====
section
/-! SUPPORT. The bit-field helpers and the flag computation in the library's own terms. -/

namespace Sys2Proof.Machine

/-- R9's formula is the library's sign extension. -/
theorem sext_eq_signExtend {n : Nat} (h0 : 0 < n) (v : BitVec n) : sext v = v.signExtend 16 := by
  apply BitVec.eq_of_getLsbD_eq
  intro i hi
  rw [BitVec.getLsbD_signExtend]
  unfold sext
  by_cases hin : i < n
  · split <;> simp [hi, hin]
  · have hz : v.getLsbD i = false := BitVec.getLsbD_of_ge v i (by omega)
    split
    · next hm =>
      have ho : (0xFFFF#16).getLsbD (i - n) = true := by
        have h : ∀ k < 16, (0xFFFF#16).getLsbD k = true := by decide
        exact h _ (by omega)
      rw [BitVec.getLsbD_or, BitVec.getLsbD_shiftLeft, ho]
      simp [hi, hin, hm]
    · next hm => simp [hi, hm, hz]

/-- The flag `setcc` writes is the one R14 gives. -/
theorem flagsReflect_flagOf (v : Word) : FlagsReflect v (flagOf v) := by
  unfold FlagsReflect flagOf
  rw [BitVec.msb_eq_getLsbD_last]
  rfl

/-- The register write and flag update of an operate or load instruction change nothing else. -/
theorem writesResult_writeResult (dr : Reg) (v : Word) (s : State) : WritesResult dr v s (writeResult dr v s) where
  result := by simp
  flags := flagsReflect_flagOf v
  regs q hq := by simp_all
  pc := rfl
  mem _ := rfl
  rest := ⟨rfl, rfl, rfl, rfl, rfl⟩

end Sys2Proof.Machine
end

