-- ==== Sys2Proof/Laws/Decode.lean ====
section
/-! SUPPORT. What the decoder does for each opcode, and what the fields of an encoded word are. -/

namespace Sys2Proof

/-! ## decode, by opcode (R61, R66) -/

theorem decode_op0 {w : Word} (op : field w 12 4 = 0x0#4) : decode w =
    .br (field w 9 3) (field w 0 9) := by
  unfold decode; rw [op]; rfl

theorem decode_op1 {w : Word} (op : field w 12 4 = 0x1#4) : decode w =
    if field w 5 1 = 1 then .addi (regField w 9) (regField w 6) (field w 0 5)
      else .add (regField w 9) (regField w 6) (regField w 0) := by
  unfold decode; rw [op]; rfl

theorem decode_op2 {w : Word} (op : field w 12 4 = 0x2#4) : decode w =
    .ld (regField w 9) (field w 0 9) := by
  unfold decode; rw [op]; rfl

theorem decode_op3 {w : Word} (op : field w 12 4 = 0x3#4) : decode w =
    .st (regField w 9) (field w 0 9) := by
  unfold decode; rw [op]; rfl

theorem decode_op4 {w : Word} (op : field w 12 4 = 0x4#4) : decode w =
    if field w 11 1 = 1 then .jsr (field w 0 11) else .jsrr (regField w 6) := by
  unfold decode; rw [op]; rfl

theorem decode_op5 {w : Word} (op : field w 12 4 = 0x5#4) : decode w =
    if field w 5 1 = 1 then .andi (regField w 9) (regField w 6) (field w 0 5)
      else .and (regField w 9) (regField w 6) (regField w 0) := by
  unfold decode; rw [op]; rfl

theorem decode_op6 {w : Word} (op : field w 12 4 = 0x6#4) : decode w =
    .ldr (regField w 9) (regField w 6) (field w 0 6) := by
  unfold decode; rw [op]; rfl

theorem decode_op7 {w : Word} (op : field w 12 4 = 0x7#4) : decode w =
    .str (regField w 9) (regField w 6) (field w 0 6) := by
  unfold decode; rw [op]; rfl

theorem decode_op8 {w : Word} (op : field w 12 4 = 0x8#4) : decode w =
    .rti (field w 0 12) := by
  unfold decode; rw [op]; rfl

theorem decode_op9 {w : Word} (op : field w 12 4 = 0x9#4) : decode w =
    .not (regField w 9) (regField w 6) := by
  unfold decode; rw [op]; rfl

theorem decode_opA {w : Word} (op : field w 12 4 = 0xA#4) : decode w =
    .ldi (regField w 9) (field w 0 9) := by
  unfold decode; rw [op]; rfl

theorem decode_opB {w : Word} (op : field w 12 4 = 0xB#4) : decode w =
    .sti (regField w 9) (field w 0 9) := by
  unfold decode; rw [op]; rfl

theorem decode_opC {w : Word} (op : field w 12 4 = 0xC#4) : decode w =
    .jmp (regField w 6) := by
  unfold decode; rw [op]; rfl

theorem decode_opD {w : Word} (op : field w 12 4 = 0xD#4) : decode w =
    .res (field w 0 12) := by
  unfold decode; rw [op]; rfl

theorem decode_opE {w : Word} (op : field w 12 4 = 0xE#4) : decode w =
    .lea (regField w 9) (field w 0 9) := by
  unfold decode; rw [op]; rfl

theorem decode_opF {w : Word} (op : field w 12 4 = 0xF#4) : decode w =
    decodeTrap (field w 0 8) := by
  unfold decode; rw [op]; rfl

/-- The decoder's register field is the spec's `(w >> lo) & 7` (C1). -/
theorem regField_eq_regAt (w : Word) (lo : Nat) : regField w lo = Machine.regAt w lo := by
  apply Fin.ext
  simp [regField, field, Machine.regAt, Nat.shiftRight_eq_div_pow]

@[simp] theorem toFin_regBits (r : Reg) : (regBits r).toFin = r := rfl

/-! ## The fields of a word laid out as R63 does -/

theorem fields_opReg9 (op : BitVec 4) (a : BitVec 3) (off : BitVec 9) :
    field (op ++ a ++ off) 12 4 = op ∧
    field (op ++ a ++ off) 9 3 = a ∧
    field (op ++ a ++ off) 0 9 = off := by
  refine ⟨?_, ?_, ?_⟩ <;> unfold field <;>
    repeat (first
      | exact BitVec.extractLsb'_eq_self
      | refine (BitVec.extractLsb'_append_eq_of_add_le (by decide)).trans ?_
      | refine (BitVec.extractLsb'_append_eq_of_le (by decide)).trans ?_)

theorem fields_opRegReg6 (op : BitVec 4) (a : BitVec 3) (b : BitVec 3) (off : BitVec 6) :
    field (op ++ a ++ b ++ off) 12 4 = op ∧
    field (op ++ a ++ b ++ off) 9 3 = a ∧
    field (op ++ a ++ b ++ off) 6 3 = b ∧
    field (op ++ a ++ b ++ off) 0 6 = off := by
  refine ⟨?_, ?_, ?_, ?_⟩ <;> unfold field <;>
    repeat (first
      | exact BitVec.extractLsb'_eq_self
      | refine (BitVec.extractLsb'_append_eq_of_add_le (by decide)).trans ?_
      | refine (BitVec.extractLsb'_append_eq_of_le (by decide)).trans ?_)

theorem fields_opRegRegMode5 (op : BitVec 4) (a : BitVec 3) (b : BitVec 3) (m : BitVec 1) (imm : BitVec 5) :
    field (op ++ a ++ b ++ m ++ imm) 12 4 = op ∧
    field (op ++ a ++ b ++ m ++ imm) 9 3 = a ∧
    field (op ++ a ++ b ++ m ++ imm) 6 3 = b ∧
    field (op ++ a ++ b ++ m ++ imm) 5 1 = m ∧
    field (op ++ a ++ b ++ m ++ imm) 0 5 = imm := by
  refine ⟨?_, ?_, ?_, ?_, ?_⟩ <;> unfold field <;>
    repeat (first
      | exact BitVec.extractLsb'_eq_self
      | refine (BitVec.extractLsb'_append_eq_of_add_le (by decide)).trans ?_
      | refine (BitVec.extractLsb'_append_eq_of_le (by decide)).trans ?_)

theorem fields_opRegRegMode23 (op : BitVec 4) (a : BitVec 3) (b : BitVec 3) (m : BitVec 1) (z : BitVec 2) (c : BitVec 3) :
    field (op ++ a ++ b ++ m ++ z ++ c) 12 4 = op ∧
    field (op ++ a ++ b ++ m ++ z ++ c) 9 3 = a ∧
    field (op ++ a ++ b ++ m ++ z ++ c) 6 3 = b ∧
    field (op ++ a ++ b ++ m ++ z ++ c) 5 1 = m ∧
    field (op ++ a ++ b ++ m ++ z ++ c) 0 3 = c := by
  refine ⟨?_, ?_, ?_, ?_, ?_⟩ <;> unfold field <;>
    repeat (first
      | exact BitVec.extractLsb'_eq_self
      | refine (BitVec.extractLsb'_append_eq_of_add_le (by decide)).trans ?_
      | refine (BitVec.extractLsb'_append_eq_of_le (by decide)).trans ?_)

theorem fields_opMode11 (op : BitVec 4) (m : BitVec 1) (off : BitVec 11) :
    field (op ++ m ++ off) 12 4 = op ∧
    field (op ++ m ++ off) 11 1 = m ∧
    field (op ++ m ++ off) 0 11 = off := by
  refine ⟨?_, ?_, ?_⟩ <;> unfold field <;>
    repeat (first
      | exact BitVec.extractLsb'_eq_self
      | refine (BitVec.extractLsb'_append_eq_of_add_le (by decide)).trans ?_
      | refine (BitVec.extractLsb'_append_eq_of_le (by decide)).trans ?_)

theorem fields_opModeReg (op : BitVec 4) (m : BitVec 1) (z : BitVec 2) (b : BitVec 3) (y : BitVec 6) :
    field (op ++ m ++ z ++ b ++ y) 12 4 = op ∧
    field (op ++ m ++ z ++ b ++ y) 11 1 = m ∧
    field (op ++ m ++ z ++ b ++ y) 6 3 = b := by
  refine ⟨?_, ?_, ?_⟩ <;> unfold field <;>
    repeat (first
      | exact BitVec.extractLsb'_eq_self
      | refine (BitVec.extractLsb'_append_eq_of_add_le (by decide)).trans ?_
      | refine (BitVec.extractLsb'_append_eq_of_le (by decide)).trans ?_)

theorem fields_opReg (op : BitVec 4) (z : BitVec 3) (b : BitVec 3) (y : BitVec 6) :
    field (op ++ z ++ b ++ y) 12 4 = op ∧
    field (op ++ z ++ b ++ y) 6 3 = b := by
  refine ⟨?_, ?_⟩ <;> unfold field <;>
    repeat (first
      | exact BitVec.extractLsb'_eq_self
      | refine (BitVec.extractLsb'_append_eq_of_add_le (by decide)).trans ?_
      | refine (BitVec.extractLsb'_append_eq_of_le (by decide)).trans ?_)

theorem fields_op8 (op : BitVec 4) (z : BitVec 4) (v : BitVec 8) :
    field (op ++ z ++ v) 12 4 = op ∧
    field (op ++ z ++ v) 0 8 = v := by
  refine ⟨?_, ?_⟩ <;> unfold field <;>
    repeat (first
      | exact BitVec.extractLsb'_eq_self
      | refine (BitVec.extractLsb'_append_eq_of_add_le (by decide)).trans ?_
      | refine (BitVec.extractLsb'_append_eq_of_le (by decide)).trans ?_)

theorem fields_op12 (op : BitVec 4) (low : BitVec 12) :
    field (op ++ low) 12 4 = op ∧
    field (op ++ low) 0 12 = low := by
  refine ⟨?_, ?_⟩ <;> unfold field <;>
    repeat (first
      | exact BitVec.extractLsb'_eq_self
      | refine (BitVec.extractLsb'_append_eq_of_add_le (by decide)).trans ?_
      | refine (BitVec.extractLsb'_append_eq_of_le (by decide)).trans ?_)

end Sys2Proof
end

