-- ==== Sys2Proof/Laws/Memory.lean ====
section
/-! SUPPORT. The laws of memory: a read after a write, the canonical form kept, and canonical memories that read alike are
equal. -/

namespace Sys2Proof.Machine

theorem Memory.wfFrom_mono {lo lo' : Nat} (h : lo ≤ lo') : ∀ {m : Memory}, Memory.wfFrom lo' m = true → Memory.wfFrom lo m = true
  | [], _ => rfl
  | (k, v) :: rest, hw => by
    simp only [Memory.wfFrom, Bool.and_eq_true, decide_eq_true_eq] at hw ⊢
    obtain ⟨⟨⟨h1, h2⟩, h3⟩, h4⟩ := hw
    exact ⟨⟨⟨by omega, h2⟩, h3⟩, h4⟩

/-- A canonical list whose keys start at `lo` lists nothing below `lo`. -/
theorem Memory.lookup_below {lo k : Nat} : ∀ {m : Memory}, Memory.wfFrom lo m = true → k < lo → Memory.lookup m k = Memory.blank
  | [], _, _ => rfl
  | (k', v) :: rest, hw, hk => by
    simp only [Memory.wfFrom, Bool.and_eq_true, decide_eq_true_eq] at hw
    obtain ⟨⟨⟨h1, _⟩, _⟩, h4⟩ := hw
    rw [Memory.lookup, if_neg (by omega)]
    exact Memory.lookup_below h4 (by omega)

/-- A canonical list lists nothing outside the address space. -/
theorem Memory.lookup_above {lo k : Nat} : ∀ {m : Memory}, Memory.wfFrom lo m = true → 0x10000 ≤ k → Memory.lookup m k = Memory.blank
  | [], _, _ => rfl
  | (k', v) :: rest, hw, hk => by
    simp only [Memory.wfFrom, Bool.and_eq_true, decide_eq_true_eq] at hw
    obtain ⟨⟨⟨_, h2⟩, _⟩, h4⟩ := hw
    rw [Memory.lookup, if_neg (by omega)]
    exact Memory.lookup_above h4 hk

theorem Memory.lookup_insert_ne {k j : Nat} (v : Word) (hj : j ≠ k) :
    ∀ m : Memory, Memory.lookup (Memory.insert m k v) j = Memory.lookup m j
  | [] => by
    rw [Memory.insert]; split <;> simp [Memory.lookup, hj]
  | (k', v') :: rest => by
    have ih := Memory.lookup_insert_ne v hj rest
    rw [Memory.insert]
    split
    · split <;> simp [Memory.lookup, hj]
    · split
      · next h => subst h; split <;> simp [Memory.lookup, hj]
      · simp [Memory.lookup, ih]

theorem Memory.lookup_insert_self {lo k : Nat} (v : Word) :
    ∀ {m : Memory}, Memory.wfFrom lo m = true → Memory.lookup (Memory.insert m k v) k = v
  | [], _ => by
    rw [Memory.insert]; split <;> simp_all [Memory.lookup]
  | (k', v') :: rest, hw => by
    have hw' := hw
    simp only [Memory.wfFrom, Bool.and_eq_true, decide_eq_true_eq] at hw'
    obtain ⟨⟨⟨h1, _⟩, _⟩, h4⟩ := hw'
    rw [Memory.insert]
    split
    · next hlt =>
      split
      · next hv =>
        have : Memory.wfFrom k' ((k', v') :: rest) = true := by
          simp only [Memory.wfFrom, Bool.and_eq_true, decide_eq_true_eq] at hw ⊢
          exact ⟨⟨⟨le_refl _, hw.1.1.2⟩, hw.1.2⟩, hw.2⟩
        rw [Memory.lookup_below this hlt, hv]
      · simp [Memory.lookup]
    · split
      · next h =>
        subst h
        split
        · next hv => rw [Memory.lookup_below h4 (by omega), hv]
        · simp [Memory.lookup]
      · next hne => rw [Memory.lookup, if_neg hne]; exact Memory.lookup_insert_self v h4

theorem Memory.insert_wfFrom {lo k : Nat} (v : Word) (hk : k < 0x10000) (hlo : lo ≤ k) :
    ∀ {m : Memory}, Memory.wfFrom lo m = true → Memory.wfFrom lo (Memory.insert m k v) = true
  | [], _ => by
    rw [Memory.insert]; split <;> simp_all [Memory.wfFrom]
  | (k', v') :: rest, hw => by
    simp only [Memory.wfFrom, Bool.and_eq_true, decide_eq_true_eq] at hw
    obtain ⟨⟨⟨h1, h2⟩, h3⟩, h4⟩ := hw
    rw [Memory.insert]
    split
    · split
      · simp [Memory.wfFrom, h1, h2, h3, h4]
      · next hlt hv =>
        simp only [Memory.wfFrom, Bool.and_eq_true, decide_eq_true_eq, bne_iff_ne]
        exact ⟨⟨⟨hlo, hk⟩, hv⟩, ⟨⟨hlt, h2⟩, by simpa using h3⟩, h4⟩
    · split
      · next h =>
        subst h
        split
        · exact Memory.wfFrom_mono (by omega) h4
        · next hv => simp [Memory.wfFrom, hlo, hk, hv, h4]
      · have ih := Memory.insert_wfFrom (lo := k' + 1) v hk (by omega) h4
        simp [Memory.wfFrom, h1, h2, h3, ih]

/-- R42: a read gives the last word written there. -/
theorem Memory.read_write_self {m : Memory} (h : m.wf = true) (a v : Word) : (m.write a v).read a = v :=
  Memory.lookup_insert_self v h

/-- R42: "no side effects beyond the target cell". -/
theorem Memory.read_write_ne (m : Memory) {a b : Word} (v : Word) (h : b ≠ a) : (m.write a v).read b = m.read b :=
  Memory.lookup_insert_ne v (fun e => h (BitVec.eq_of_toNat_eq e)) m

theorem Memory.read_write {m : Memory} (h : m.wf = true) (a b v : Word) :
    (m.write a v).read b = if b = a then v else m.read b := by
  split
  · next e => rw [e, Memory.read_write_self h]
  · next e => exact Memory.read_write_ne m v e

/-- Every write keeps the canonical form. -/
theorem Memory.write_wf {m : Memory} (h : m.wf = true) (a v : Word) : (m.write a v).wf = true :=
  Memory.insert_wfFrom v a.isLt (Nat.zero_le _) h

theorem Memory.ext_lookup {lo : Nat} : ∀ {m m' : Memory}, Memory.wfFrom lo m = true → Memory.wfFrom lo m' = true →
    (∀ k, Memory.lookup m k = Memory.lookup m' k) → m = m'
  | [], [], _, _, _ => rfl
  | [], (k, v) :: rest, _, hw, he => by
    simp only [Memory.wfFrom, Bool.and_eq_true, decide_eq_true_eq, bne_iff_ne] at hw
    have := he k
    simp only [Memory.lookup, if_true] at this
    exact absurd this.symm hw.1.2
  | (k, v) :: rest, [], hw, _, he => by
    simp only [Memory.wfFrom, Bool.and_eq_true, decide_eq_true_eq, bne_iff_ne] at hw
    have := he k
    simp only [Memory.lookup, if_true] at this
    exact absurd this hw.1.2
  | (k, v) :: rest, (k', v') :: rest', hw, hw', he => by
    have g := hw
    have g' := hw'
    simp only [Memory.wfFrom, Bool.and_eq_true, decide_eq_true_eq, bne_iff_ne] at g g'
    obtain ⟨⟨⟨h1, h2⟩, h3⟩, h4⟩ := g
    obtain ⟨⟨⟨h1', h2'⟩, h3'⟩, h4'⟩ := g'
    have hkk : k = k' := by
      rcases Nat.lt_trichotomy k k' with hlt | heq | hgt
      · have := he k
        rw [Memory.lookup, if_pos rfl, Memory.lookup, if_neg (by omega), Memory.lookup_below h4' (by omega)] at this
        exact absurd this h3
      · exact heq
      · have := he k'
        rw [Memory.lookup, if_neg (by omega), Memory.lookup_below h4 (by omega), Memory.lookup, if_pos rfl] at this
        exact absurd this.symm h3'
    subst hkk
    have hv : v = v' := by simpa [Memory.lookup] using he k
    subst hv
    have hr : rest = rest' := by
      refine Memory.ext_lookup h4 h4' fun j => ?_
      by_cases hj : j = k
      · subst hj; rw [Memory.lookup_below h4 (by omega), Memory.lookup_below h4' (by omega)]
      · simpa [Memory.lookup, hj] using he j
    rw [hr]

end Sys2Proof.Machine
end

