-- ==== Sys2Proof/Laws/Machine.lean ====
section
/-! SUPPORT. What each shared operation can do, said once: the keyboard refresh, reads and the fetch, console writes, the
string scan. Later proofs cite these and unfold none of the operations. -/

namespace Sys2Proof.Machine

/-! ## Reads (R41, R45) -/

theorem State.afterRead_plain {s : State} {a : Word} (h : a ≠ s.params.kbsrAddr) : s.afterRead a = s := if_neg h

theorem State.memRead_plain {s : State} {a : Word} (h : a ≠ s.params.kbsrAddr) : s.memRead a = s.mem.read a := by
  rw [State.memRead, State.afterRead_plain h]

theorem State.afterRead_kbsr (s : State) : s.afterRead s.params.kbsrAddr = refreshKeyboard s := if_pos rfl

/-- The two outcomes of the refresh (R45). -/
theorem refreshKeyboard_cases (s : State) :
    (s.input.avail = true ∧
      refreshKeyboard s = (s.setInput s.input.polled.take.2).setMem
        ((s.mem.write s.params.kbsrAddr kbsrReady).write s.params.kbdrAddr (zext s.input.polled.take.1))) ∨
    (s.input.avail = false ∧
      refreshKeyboard s = (s.setInput s.input.polled).setMem (s.mem.write s.params.kbsrAddr 0x0000)) := by
  unfold refreshKeyboard
  cases h : s.input.avail <;> simp

/-- A read changes memory and the input side only. -/
theorem State.afterRead_shape (s : State) (a : Word) :
    ∃ c m, s.afterRead a = (s.setInput c).setMem m ∧ (s.mem.wf = true → m.wf = true) ∧
      c.pending <:+ s.input.pending ∧
      (∀ b, b ≠ s.params.kbsrAddr → b ≠ s.params.kbdrAddr → m.read b = s.mem.read b) := by
  by_cases h : a = s.params.kbsrAddr
  · subst h
    rw [State.afterRead_kbsr]
    rcases refreshKeyboard_cases s with ⟨_, e⟩ | ⟨_, e⟩
    · refine ⟨_, _, e, fun w => Memory.write_wf (Memory.write_wf w _ _) _ _, ?_, fun b hb hb' => ?_⟩
      · simp only [ConsoleInput.take, ConsoleInput.polled]
        split
        · next b rest hp => rw [hp]; exact List.suffix_cons _ _
        · exact List.suffix_refl _
      · rw [Memory.read_write_ne _ _ hb', Memory.read_write_ne _ _ hb]
    · exact ⟨_, _, e, fun w => Memory.write_wf w _ _, List.suffix_refl _, fun b hb _ => Memory.read_write_ne _ _ hb⟩
  · exact ⟨s.input, s.mem, State.afterRead_plain h, id, List.suffix_refl _, fun _ _ _ => rfl⟩

@[simp] theorem State.reg_afterRead (s : State) (a : Word) (q : Reg) : (s.afterRead a).reg q = s.reg q := by
  obtain ⟨c, m, e, -⟩ := s.afterRead_shape a; simp [e]

@[simp] theorem State.pc_afterRead (s : State) (a : Word) : (s.afterRead a).pc = s.pc := by
  obtain ⟨c, m, e, -⟩ := s.afterRead_shape a; simp [e]

@[simp] theorem State.cond_afterRead (s : State) (a : Word) : (s.afterRead a).cond = s.cond := by
  obtain ⟨c, m, e, -⟩ := s.afterRead_shape a; simp [e]

@[simp] theorem State.count_afterRead (s : State) (a : Word) : (s.afterRead a).count = s.count := by
  obtain ⟨c, m, e, -⟩ := s.afterRead_shape a; simp [e]

@[simp] theorem State.run_afterRead (s : State) (a : Word) : (s.afterRead a).run = s.run := by
  obtain ⟨c, m, e, -⟩ := s.afterRead_shape a; simp [e]

@[simp] theorem State.output_afterRead (s : State) (a : Word) : (s.afterRead a).output = s.output := by
  obtain ⟨c, m, e, -⟩ := s.afterRead_shape a; simp [e]

@[simp] theorem State.params_afterRead (s : State) (a : Word) : (s.afterRead a).params = s.params := by
  obtain ⟨c, m, e, -⟩ := s.afterRead_shape a; simp [e]

/-- Every memory read keeps the canonical form. -/
theorem State.afterRead_wf {s : State} (h : s.mem.wf = true) (a : Word) : (s.afterRead a).mem.wf = true := by
  obtain ⟨c, m, e, w, -⟩ := s.afterRead_shape a; rw [e]; exact w h

/-! ## Console writes (R16, R174) -/

/-- A write either appends its byte or raises; the rest of the state is as before. -/
theorem consoleOut_cases (f : FaultKind) (b : Byte) (s : State) :
    (s.output.accepted = true ∧ consoleOut f b s = .done (s.setOutput ⟨s.output.bytes ++ [b], s.output.accepts.rest⟩)) ∨
    (s.output.accepted = false ∧ consoleOut f b s = .raised (s.setOutput ⟨s.output.bytes, s.output.accepts.rest⟩) f) := by
  unfold consoleOut ConsoleOutput.written
  cases h : s.output.accepted <;> simp

/-- Accepted writes append their bytes in order. -/
theorem consoleOutStr_accepted (f : FaultKind) : ∀ (bs : List Byte) (s : State),
    acceptsNext bs.length s.output.accepts = true →
    consoleOutStr f bs s = .done (s.setOutput ⟨s.output.bytes ++ bs, answersAfter bs.length s.output.accepts⟩)
  | [], s, _ => by simp only [consoleOutStr, List.append_nil, List.length_nil, answersAfter]; rfl
  | b :: bs, s, h => by
    simp only [List.length_cons, acceptsNext, Bool.and_eq_true] at h
    rcases consoleOut_cases f b s with ⟨_, e⟩ | ⟨hn, _⟩
    · rw [consoleOutStr, e, Flow.andThen, consoleOutStr_accepted f bs _ h.2]
      simp [answersAfter, State.setOutput]
    · exact absurd h.1 (by simpa [ConsoleOutput.accepted] using hn)

/-- What a sequence of console operations can do to a state: the output grows and its answers are used up; nothing else. -/
def OutputOnly (s t : State) : Prop := ∃ bs q, t = s.setOutput ⟨s.output.bytes ++ bs, q⟩

theorem OutputOnly.refl (s : State) : OutputOnly s s := ⟨[], s.output.accepts, by simp [State.setOutput]⟩

theorem OutputOnly.trans {s t u : State} (h : OutputOnly s t) (k : OutputOnly t u) : OutputOnly s u := by
  obtain ⟨bs, q, rfl⟩ := h
  obtain ⟨cs, q', rfl⟩ := k
  exact ⟨bs ++ cs, q', by simp [State.setOutput]⟩

/-- A console string ends `done`, or raises exactly its own fault; either way only the output changes. -/
theorem consoleOutStr_cases (f : FaultKind) : ∀ (bs : List Byte) (s : State),
    (∃ t, consoleOutStr f bs s = .done t ∧ OutputOnly s t) ∨ (∃ t, consoleOutStr f bs s = .raised t f ∧ OutputOnly s t)
  | [], s => .inl ⟨s, rfl, OutputOnly.refl s⟩
  | b :: bs, s => by
    rcases consoleOut_cases f b s with ⟨_, e⟩ | ⟨_, e⟩
    · rw [consoleOutStr, e, Flow.andThen]
      have h : OutputOnly s (s.setOutput ⟨s.output.bytes ++ [b], s.output.accepts.rest⟩) := ⟨[b], _, rfl⟩
      rcases consoleOutStr_cases f bs (s.setOutput ⟨s.output.bytes ++ [b], s.output.accepts.rest⟩) with ⟨t, e', k⟩ | ⟨t, e', k⟩
      · exact .inl ⟨t, e', h.trans k⟩
      · exact .inr ⟨t, e', h.trans k⟩
    · rw [consoleOutStr, e, Flow.andThen]
      exact .inr ⟨_, rfl, [], s.output.accepts.rest, by simp⟩

/-! ## What any instruction can do to the parts no instruction owns -/

/-- The part of every instruction's frame that all of them share. -/
structure Preserves (s t : State) : Prop where
  fixed : SameFixed s t
  memWf : s.mem.wf = true → t.mem.wf = true
  condLegal : s.CondLegal → t.CondLegal
  outGrows : s.output.bytes <+: t.output.bytes
  inputConsumed : t.input.pending <:+ s.input.pending

theorem Preserves.refl (s : State) : Preserves s s :=
  ⟨⟨rfl, rfl⟩, id, id, List.prefix_refl _, List.suffix_refl _⟩

theorem Preserves.trans {s t u : State} (h : Preserves s t) (k : Preserves t u) : Preserves s u :=
  ⟨⟨k.fixed.1.trans h.fixed.1, k.fixed.2.trans h.fixed.2⟩, k.memWf ∘ h.memWf, k.condLegal ∘ h.condLegal,
    h.outGrows.trans k.outGrows, k.inputConsumed.trans h.inputConsumed⟩

theorem flagOf_legal (v : Word) : flagOf v = condN ∨ flagOf v = condZ ∨ flagOf v = condP := by
  unfold flagOf; split <;> [simp; (split <;> simp)]

theorem preserves_setReg (s : State) (r : Reg) (v : Word) : Preserves s (s.setReg r v) :=
  ⟨⟨rfl, rfl⟩, id, id, List.prefix_refl _, List.suffix_refl _⟩

theorem preserves_setPc (s : State) (v : Word) : Preserves s (s.setPc v) :=
  ⟨⟨rfl, rfl⟩, id, id, List.prefix_refl _, List.suffix_refl _⟩

theorem preserves_writeResult (dr : Reg) (v : Word) (s : State) : Preserves s (writeResult dr v s) :=
  ⟨⟨rfl, rfl⟩, id, fun _ => flagOf_legal v, List.prefix_refl _, List.suffix_refl _⟩

theorem preserves_memWrite (s : State) (a v : Word) : Preserves s (s.memWrite a v) :=
  ⟨⟨rfl, rfl⟩, fun h => Memory.write_wf h a v, id, List.prefix_refl _, List.suffix_refl _⟩

theorem preserves_setHalted (s : State) (e : Exit) : Preserves s (s.setHalted e) :=
  ⟨⟨rfl, rfl⟩, id, id, List.prefix_refl _, List.suffix_refl _⟩

theorem preserves_afterRead (s : State) (a : Word) : Preserves s (s.afterRead a) := by
  obtain ⟨c, m, e, hw, hp, -⟩ := s.afterRead_shape a
  rw [e]
  exact ⟨⟨rfl, rfl⟩, hw, id, List.prefix_refl _, hp⟩

theorem OutputOnly.preserves {s t : State} (h : OutputOnly s t) : Preserves s t := by
  obtain ⟨bs, q, rfl⟩ := h
  exact ⟨⟨rfl, rfl⟩, id, id, List.prefix_append _ _, List.suffix_refl _⟩

theorem preserves_trapLink (s : State) : Preserves s (trapLink s) := by
  unfold trapLink; split
  · exact preserves_setReg _ _ _
  · exact Preserves.refl s

/-- Raising a fault keeps what the routine kept: the registers are the ones before it. -/
theorem preserves_raiseFault {start s : State} (h : Preserves start s) (f : FaultKind) : Preserves start (raiseFault start s f) :=
  ⟨⟨rfl, h.fixed.2⟩, h.memWf, fun k => k, h.outGrows, h.inputConsumed⟩

/-- The state a flow has reached. -/
def Flow.state : Flow → State
  | .done s => s
  | .raised s _ => s

theorem preserves_finish {start : State} {x : Flow} (h : Preserves start x.state) : Preserves start (x.finish start) := by
  cases x with
  | done s => exact h
  | raised s f => exact preserves_raiseFault h f

theorem preserves_andThen {start : State} {x : Flow} {k : State → Flow} (h : Preserves start x.state)
    (hk : ∀ t, Preserves start t → Preserves start (k t).state) : Preserves start (x.andThen k).state := by
  cases x with
  | done s => exact hk s h
  | raised s f => exact h

theorem preserves_consoleOutStr (f : FaultKind) (bs : List Byte) (s : State) : Preserves s (consoleOutStr f bs s).state := by
  rcases consoleOutStr_cases f bs s with ⟨t, e, h⟩ | ⟨t, e, h⟩ <;> rw [e] <;> exact h.preserves

theorem preserves_consoleOut (f : FaultKind) (b : Byte) (s : State) : Preserves s (consoleOut f b s).state := by
  rcases consoleOut_cases f b s with ⟨_, e⟩ | ⟨_, e⟩ <;> rw [e]
  · exact OutputOnly.preserves ⟨[b], _, rfl⟩
  · exact OutputOnly.preserves ⟨[], s.output.accepts.rest, by simp [Flow.state]⟩

theorem preserves_scanString (f g : FaultKind) (chars : Word → List Byte) :
    ∀ (n : Nat) (p : Word) (s : State), Preserves s (scanString f g chars n p s).state
  | 0, _, s => Preserves.refl s
  | n + 1, p, s => by
    rw [scanString]
    split
    · exact preserves_afterRead s p
    · exact preserves_andThen ((preserves_afterRead s p).trans (preserves_consoleOutStr _ _ _))
        fun t h => h.trans (preserves_scanString f g chars n (p + 1) t)

/-- The input side after an answered read has only lost bytes from its front. -/
theorem ConsoleInput.read_pending {c c' : ConsoleInput} {ans : Option Byte} (h : c.read = some (ans, c')) :
    c'.pending <:+ c.pending := by
  obtain ⟨pending, tail, polls, n⟩ := c
  cases pending with
  | cons b rest => cases h; exact List.suffix_cons _ _
  | nil => cases tail <;> cases h <;> exact List.suffix_refl _

theorem preserves_setInput {s : State} {c : ConsoleInput} (h : c.pending <:+ s.input.pending) : Preserves s (s.setInput c) :=
  ⟨⟨rfl, rfl⟩, id, id, List.prefix_refl _, h⟩

end Sys2Proof.Machine
end

