-- ==== Sys2Proof/Laws/Exec.lean ====
section
/-! SUPPORT. What every instruction keeps, one lemma for all of them, and the shared shape of the string routines. -/

namespace Sys2Proof.Machine

theorem preserves_loadFrom (dr : Reg) (a : Word) (s : State) : Preserves s (loadFrom dr a s) :=
  (preserves_afterRead s a).trans (preserves_writeResult _ _ _)

theorem preserves_stringRoutine (start : State) (r : Routine) (chars : Word → List Byte) (s : State) :
    Preserves s (stringRoutine start r chars s).state := preserves_scanString _ _ _ _ _ _

theorem preserves_inRoutine (start : State) (ans : Option Byte) (s : State) : Preserves s (inRoutine start ans s).state := by
  cases ans with
  | none => exact Preserves.refl s
  | some b =>
    exact preserves_andThen (preserves_consoleOut _ _ _) fun _ h => h.trans (preserves_writeResult _ _ _)

theorem preserves_haltRoutine (start s : State) : Preserves s (haltRoutine start s).state :=
  preserves_andThen (preserves_consoleOutStr _ _ _) fun _ h => h.trans (preserves_setHalted _ _)

theorem preserves_trapGetc {s t : State} (h : trapGetc s = .next t) : Preserves s t := by
  unfold trapGetc at h
  split at h
  · cases h
  · next ans input hr =>
    cases h
    have hin : Preserves s ((trapLink s).setInput input) := by
      refine (preserves_trapLink s).trans (preserves_setInput ?_)
      have := ConsoleInput.read_pending hr
      unfold trapLink; split <;> exact this
    refine preserves_finish ?_
    cases ans with
    | none => exact hin
    | some b => exact hin.trans (preserves_setReg _ _ _)

theorem preserves_trapIn {s t : State} (h : trapIn s = .next t) : Preserves s t := by
  unfold trapIn at h
  have hp : Preserves s (inPromptRoutine s (trapLink s)).state :=
    (preserves_trapLink s).trans (preserves_consoleOutStr _ _ _)
  split at h
  · split at h
    · next u f e => cases h; rw [e] at hp; exact preserves_raiseFault hp f
    · cases h
  · next ans input hr =>
    cases h
    refine preserves_finish ?_
    have hin : (trapLink s).input = s.input := by unfold trapLink; split <;> rfl
    rcases consoleOutStr_cases (ioError s .inChar .write) (trapLink s).params.inPrompt (trapLink s) with
      ⟨u, e, k⟩ | ⟨u, e, k⟩
    · have hu : u.input = s.input := by obtain ⟨bs, q, rfl⟩ := k; exact hin
      rw [inPromptRoutine, e] at hp ⊢
      have hs : Preserves s (u.setInput input) :=
        Preserves.trans hp (preserves_setInput (by rw [Flow.state, hu]; exact ConsoleInput.read_pending hr))
      exact hs.trans (preserves_inRoutine _ _ _)
    · rw [inPromptRoutine, e] at hp ⊢
      exact hp

theorem preserves_execTrap {v : Byte} {s t : State} (h : execTrap v s = .next t) : Preserves s t := by
  unfold execTrap at h
  split at h
  · exact preserves_trapGetc h
  split at h
  · cases h; exact preserves_finish ((preserves_trapLink s).trans (preserves_consoleOut _ _ _))
  split at h
  · cases h; exact preserves_finish ((preserves_trapLink s).trans (preserves_stringRoutine _ _ _ _))
  split at h
  · exact preserves_trapIn h
  split at h
  · cases h; exact preserves_finish ((preserves_trapLink s).trans (preserves_stringRoutine _ _ _ _))
  split at h
  · cases h; exact preserves_finish ((preserves_trapLink s).trans (preserves_haltRoutine _ _))
  · cases h; exact preserves_raiseFault (preserves_trapLink s) _

/-- Every instruction keeps the counter, the parameters, the canonical memory form and a legal COND, only appends to the
output and only takes queued input from its front. -/
theorem exec_preserves {i : Instr} {s t : State} (h : exec i s = .next t) : Preserves s t := by
  cases i with
  | add | addi | and | andi | not | lea => cases h; exact preserves_writeResult _ _ _
  | br =>
    cases h
    split
    · exact preserves_setPc _ _
    · exact Preserves.refl s
  | jmp => cases h; exact preserves_setPc _ _
  | jsr | jsrr => cases h; exact (preserves_setReg _ _ _).trans (preserves_setPc _ _)
  | ld | ldr => cases h; exact preserves_loadFrom _ _ _
  | ldi => cases h; exact (preserves_afterRead _ _).trans (preserves_loadFrom _ _ _)
  | st | str => cases h; exact preserves_memWrite _ _ _
  | sti => cases h; exact (preserves_afterRead _ _).trans (preserves_memWrite _ _ _)
  | trap v => exact preserves_execTrap h
  | getc => exact preserves_trapGetc h
  | out => cases h; exact preserves_finish ((preserves_trapLink s).trans (preserves_consoleOut _ _ _))
  | puts => cases h; exact preserves_finish ((preserves_trapLink s).trans (preserves_stringRoutine _ _ _ _))
  | inChar => exact preserves_trapIn h
  | putsp => cases h; exact preserves_finish ((preserves_trapLink s).trans (preserves_stringRoutine _ _ _ _))
  | halt => cases h; exact preserves_finish ((preserves_trapLink s).trans (preserves_haltRoutine _ _))
  | rti | res => cases h; exact preserves_raiseFault (Preserves.refl s) _

end Sys2Proof.Machine
end

