-- ==== Sys2Proof/Laws/PerInstr.lean ====
section
/-! SUPPORT. The statements made per instruction: RoundTrip says that decoding an instruction's own word gives it back. -/

namespace Sys2Proof

/-- Decoding the word of a well-formed instruction gives it back. -/
def Laws.RoundTrip.Statement (i : Instr) : Prop := i.wellFormed = true → decode (encode i) = i

theorem Laws.RoundTrip.add (dr sr1 sr2 : Reg) : Laws.RoundTrip.Statement (.add dr sr1 sr2) := fun _ => by
  obtain ⟨op, a, b, m, c⟩ := fields_opRegRegMode23 0x1#4 (regBits dr) (regBits sr1) 0#1 0#2 (regBits sr2)
  refine (decode_op1 op).trans ?_
  exact (if_neg (by rw [m]; decide)).trans (by simp only [regField, a, b, c, toFin_regBits])

theorem Laws.RoundTrip.addi (dr sr1 : Reg) (imm5 : BitVec 5) : Laws.RoundTrip.Statement (.addi dr sr1 imm5) := fun _ => by
  obtain ⟨op, a, b, m, c⟩ := fields_opRegRegMode5 0x1#4 (regBits dr) (regBits sr1) 1#1 imm5
  refine (decode_op1 op).trans ?_
  exact (if_pos m).trans (by simp only [regField, a, b, c, toFin_regBits])

theorem Laws.RoundTrip.and (dr sr1 sr2 : Reg) : Laws.RoundTrip.Statement (.and dr sr1 sr2) := fun _ => by
  obtain ⟨op, a, b, m, c⟩ := fields_opRegRegMode23 0x5#4 (regBits dr) (regBits sr1) 0#1 0#2 (regBits sr2)
  refine (decode_op5 op).trans ?_
  exact (if_neg (by rw [m]; decide)).trans (by simp only [regField, a, b, c, toFin_regBits])

theorem Laws.RoundTrip.andi (dr sr1 : Reg) (imm5 : BitVec 5) : Laws.RoundTrip.Statement (.andi dr sr1 imm5) := fun _ => by
  obtain ⟨op, a, b, m, c⟩ := fields_opRegRegMode5 0x5#4 (regBits dr) (regBits sr1) 1#1 imm5
  refine (decode_op5 op).trans ?_
  exact (if_pos m).trans (by simp only [regField, a, b, c, toFin_regBits])

theorem Laws.RoundTrip.not (dr sr : Reg) : Laws.RoundTrip.Statement (.not dr sr) := fun _ => by
  obtain ⟨op, a, b, -⟩ := fields_opRegReg6 0x9#4 (regBits dr) (regBits sr) 0x3F#6
  refine (decode_op9 op).trans ?_
  simp only [regField, a, b, toFin_regBits]

theorem Laws.RoundTrip.br (nzp : BitVec 3) (off9 : BitVec 9) : Laws.RoundTrip.Statement (.br nzp off9) := fun _ => by
  obtain ⟨op, a, b⟩ := fields_opReg9 0x0#4 nzp off9
  refine (decode_op0 op).trans ?_
  rw [a, b]

theorem Laws.RoundTrip.jmp (base : Reg) : Laws.RoundTrip.Statement (.jmp base) := fun _ => by
  obtain ⟨op, a⟩ := fields_opReg 0xC#4 0#3 (regBits base) 0#6
  refine (decode_opC op).trans ?_
  simp only [regField, a, toFin_regBits]

theorem Laws.RoundTrip.jsr (off11 : BitVec 11) : Laws.RoundTrip.Statement (.jsr off11) := fun _ => by
  obtain ⟨op, m, a⟩ := fields_opMode11 0x4#4 1#1 off11
  refine (decode_op4 op).trans ?_
  exact (if_pos m).trans (by rw [a])

theorem Laws.RoundTrip.jsrr (base : Reg) : Laws.RoundTrip.Statement (.jsrr base) := fun _ => by
  obtain ⟨op, m, a⟩ := fields_opModeReg 0x4#4 0#1 0#2 (regBits base) 0#6
  refine (decode_op4 op).trans ?_
  exact (if_neg (by rw [m]; decide)).trans (by simp only [regField, a, toFin_regBits])

theorem Laws.RoundTrip.ld (dr : Reg) (off9 : BitVec 9) : Laws.RoundTrip.Statement (.ld dr off9) := fun _ => by
  obtain ⟨op, a, b⟩ := fields_opReg9 0x2#4 (regBits dr) off9
  refine (decode_op2 op).trans ?_
  simp only [regField, a, b, toFin_regBits]

theorem Laws.RoundTrip.ldi (dr : Reg) (off9 : BitVec 9) : Laws.RoundTrip.Statement (.ldi dr off9) := fun _ => by
  obtain ⟨op, a, b⟩ := fields_opReg9 0xA#4 (regBits dr) off9
  refine (decode_opA op).trans ?_
  simp only [regField, a, b, toFin_regBits]

theorem Laws.RoundTrip.lea (dr : Reg) (off9 : BitVec 9) : Laws.RoundTrip.Statement (.lea dr off9) := fun _ => by
  obtain ⟨op, a, b⟩ := fields_opReg9 0xE#4 (regBits dr) off9
  refine (decode_opE op).trans ?_
  simp only [regField, a, b, toFin_regBits]

theorem Laws.RoundTrip.st (sr : Reg) (off9 : BitVec 9) : Laws.RoundTrip.Statement (.st sr off9) := fun _ => by
  obtain ⟨op, a, b⟩ := fields_opReg9 0x3#4 (regBits sr) off9
  refine (decode_op3 op).trans ?_
  simp only [regField, a, b, toFin_regBits]

theorem Laws.RoundTrip.sti (sr : Reg) (off9 : BitVec 9) : Laws.RoundTrip.Statement (.sti sr off9) := fun _ => by
  obtain ⟨op, a, b⟩ := fields_opReg9 0xB#4 (regBits sr) off9
  refine (decode_opB op).trans ?_
  simp only [regField, a, b, toFin_regBits]

theorem Laws.RoundTrip.ldr (dr base : Reg) (off6 : BitVec 6) : Laws.RoundTrip.Statement (.ldr dr base off6) := fun _ => by
  obtain ⟨op, a, b, c⟩ := fields_opRegReg6 0x6#4 (regBits dr) (regBits base) off6
  refine (decode_op6 op).trans ?_
  simp only [regField, a, b, c, toFin_regBits]

theorem Laws.RoundTrip.str (sr base : Reg) (off6 : BitVec 6) : Laws.RoundTrip.Statement (.str sr base off6) := fun _ => by
  obtain ⟨op, a, b, c⟩ := fields_opRegReg6 0x7#4 (regBits sr) (regBits base) off6
  refine (decode_op7 op).trans ?_
  simp only [regField, a, b, c, toFin_regBits]

/-- The one instruction with a check of its own: a TRAP whose vector has no row. -/
theorem Laws.RoundTrip.trap (vector : Byte) : Laws.RoundTrip.Statement (.trap vector) := fun wf => by
  obtain ⟨op, a⟩ := fields_op8 0xF#4 0#4 vector
  refine (decode_opF op).trans ?_
  rw [a]
  have h : ∀ k : Byte, isServiceVector k = true → vector ≠ k := by
    rintro k hk rfl
    simp [Instr.wellFormed, hk] at wf
  simp only [decodeTrap, if_neg (h 0x20 (by decide)), if_neg (h 0x21 (by decide)), if_neg (h 0x22 (by decide)),
    if_neg (h 0x23 (by decide)), if_neg (h 0x24 (by decide)), if_neg (h 0x25 (by decide))]

theorem Laws.RoundTrip.getc : Laws.RoundTrip.Statement .getc := fun _ => by decide

theorem Laws.RoundTrip.out : Laws.RoundTrip.Statement .out := fun _ => by decide

theorem Laws.RoundTrip.puts : Laws.RoundTrip.Statement .puts := fun _ => by decide

theorem Laws.RoundTrip.inChar : Laws.RoundTrip.Statement .inChar := fun _ => by decide

theorem Laws.RoundTrip.putsp : Laws.RoundTrip.Statement .putsp := fun _ => by decide

theorem Laws.RoundTrip.halt : Laws.RoundTrip.Statement .halt := fun _ => by decide

theorem Laws.RoundTrip.rti (low : BitVec 12) : Laws.RoundTrip.Statement (.rti low) := fun _ => by
  obtain ⟨op, a⟩ := fields_op12 0x8#4 low
  refine (decode_op8 op).trans ?_
  rw [a]

theorem Laws.RoundTrip.res (low : BitVec 12) : Laws.RoundTrip.Statement (.res low) := fun _ => by
  obtain ⟨op, a⟩ := fields_op12 0xD#4 low
  refine (decode_opD op).trans ?_
  rw [a]

end Sys2Proof
end

