-- ==== Sys2Proof/Laws/Trap.lean ====
section
/-! SUPPORT. What the trap routines are built from can do: TRAP's link, sequences of writes, the string scan, raising. -/

namespace Sys2Proof.Machine

/-! ## Raising -/

theorem takesFault_raiseFault {s t : State} (h : t.params = s.params) (f : FaultKind) :
    TakesFault f s (raiseFault s t f) := ⟨rfl, fun _ _ => by simp, rfl, rfl, rfl, h⟩

/-! ## TRAP's link (R141) -/

theorem trapLink_cases (s : State) :
    (trapLink s = s ∧ trapLinked s = []) ∨ (trapLink s = s.setReg 7 s.pc ∧ trapLinked s = [7]) := by
  unfold trapLink trapLinked
  split
  · exact .inr ⟨rfl, rfl⟩
  · exact .inl ⟨rfl, rfl⟩

@[simp] theorem pc_trapLink (s : State) : (trapLink s).pc = s.pc := by unfold trapLink; split <;> rfl
@[simp] theorem cond_trapLink (s : State) : (trapLink s).cond = s.cond := by unfold trapLink; split <;> rfl
@[simp] theorem count_trapLink (s : State) : (trapLink s).count = s.count := by unfold trapLink; split <;> rfl
@[simp] theorem mem_trapLink (s : State) : (trapLink s).mem = s.mem := by unfold trapLink; split <;> rfl
@[simp] theorem run_trapLink (s : State) : (trapLink s).run = s.run := by unfold trapLink; split <;> rfl
@[simp] theorem input_trapLink (s : State) : (trapLink s).input = s.input := by unfold trapLink; split <;> rfl
@[simp] theorem output_trapLink (s : State) : (trapLink s).output = s.output := by unfold trapLink; split <;> rfl
@[simp] theorem params_trapLink (s : State) : (trapLink s).params = s.params := by unfold trapLink; split <;> rfl
@[simp] theorem arg_trapLink (s : State) : (trapLink s).reg 0 = s.reg 0 := by unfold trapLink; split <;> simp [linkReg]

/-- TRAP's own effect on the registers is the one R141 gives. -/
theorem trapRegs_trapLink (s : State) : TrapRegs [] s (trapLink s) := by
  rcases trapLink_cases s with ⟨e, e'⟩ | ⟨e, e'⟩
  · exact ⟨by rw [e']; simp, fun _ _ => by rw [e], by simp, by simp, by simp⟩
  · refine ⟨by rw [e, e']; simp, fun q hq => ?_, by simp, by simp, by simp⟩
    rw [e'] at hq; rw [e]; simp_all

/-- A routine that goes on from TRAP's link and writes only the registers `own`. -/
theorem TrapRegs.extend {s t u : State} {own : List Reg} (h : TrapRegs [] s t) (hr : ∀ q, q ∉ own → u.reg q = t.reg q)
    (hp : u.pc = t.pc) (hf : SameFixed t u) : TrapRegs own s u where
  linked q hq ho := by rw [hr q ho]; exact h.linked q hq (by simp)
  regs q hq := by
    simp only [List.mem_append, not_or] at hq
    rw [hr q hq.1]; exact h.regs q (by simpa using hq.2)
  pc := hp.trans h.pc
  fixed := ⟨hf.1.trans h.fixed.1, hf.2.trans h.fixed.2⟩

/-! ## Sequences of writes (R16, R174) -/

theorem acceptsNext_add (n : Nat) : ∀ (m : Nat) (q : Answers),
    acceptsNext (m + n) q = (acceptsNext m q && acceptsNext n (answersAfter m q))
  | 0, q => by simp [acceptsNext, answersAfter]
  | m + 1, q => by
    rw [show m + 1 + n = (m + n) + 1 by omega]
    simp [acceptsNext, answersAfter, acceptsNext_add n m, Bool.and_assoc]

theorem answersAfter_add (n : Nat) : ∀ (m : Nat) (q : Answers), answersAfter (m + n) q = answersAfter n (answersAfter m q)
  | 0, q => by simp [answersAfter]
  | m + 1, q => by
    rw [show m + 1 + n = (m + n) + 1 by omega]
    simp [answersAfter, answersAfter_add n m]

theorem State.wrote_wrote (s : State) (bs cs : List Byte) (m n : Nat) :
    (s.wrote bs m).wrote cs n = s.wrote (bs ++ cs) (m + n) := by
  simp [State.wrote, State.setOutput, answersAfter_add]

theorem consoleOutStr_wrote (f : FaultKind) (bs : List Byte) (s : State)
    (h : acceptsNext bs.length s.output.accepts = true) : consoleOutStr f bs s = .done (s.wrote bs bs.length) :=
  consoleOutStr_accepted f bs s h

/-- The first refused write raises, after the bytes before it. -/
theorem consoleOutStr_refused (f : FaultKind) : ∀ (bs : List Byte) (s : State) (n : Nat), n < bs.length →
    acceptsNext n s.output.accepts = true → (answersAfter n s.output.accepts).next Config.freeAccept = false →
    consoleOutStr f bs s = .raised (s.wrote (bs.take n) (n + 1)) f
  | b :: bs, s, 0, _, _, hr => by
    rcases consoleOut_cases f b s with ⟨k, _⟩ | ⟨_, e⟩
    · rw [ConsoleOutput.accepted] at k
      rw [answersAfter, k] at hr
      cases hr
    · rw [consoleOutStr, e]; simp [Flow.andThen, State.wrote, answersAfter]
  | b :: bs, s, n + 1, hn, ha, hr => by
    simp only [acceptsNext, Bool.and_eq_true] at ha
    rcases consoleOut_cases f b s with ⟨_, e⟩ | ⟨k, _⟩
    · rw [consoleOutStr, e, Flow.andThen, consoleOutStr_refused f bs
        (s.setOutput ⟨s.output.bytes ++ [b], s.output.accepts.rest⟩) n (by simpa using hn) ha.2 hr]
      simp [State.wrote, answersAfter, State.setOutput]
    · rw [ConsoleOutput.accepted, ha.1] at k; cases k

/-! ## What reads and writes of a routine leave alone -/

/-- Reads and console operations change no register, no run state, no parameter, and no word but the keyboard's. -/
structure ConsoleFrame (s t : State) : Prop where
  regs : t.regs = s.regs
  run : t.run = s.run
  params : t.params = s.params
  mem : ∀ a, a ≠ s.params.kbsrAddr → a ≠ s.params.kbdrAddr → t.mem.read a = s.mem.read a

theorem ConsoleFrame.refl (s : State) : ConsoleFrame s s := ⟨rfl, rfl, rfl, fun _ _ _ => rfl⟩

theorem ConsoleFrame.trans {s t u : State} (h : ConsoleFrame s t) (k : ConsoleFrame t u) : ConsoleFrame s u :=
  ⟨k.regs.trans h.regs, k.run.trans h.run, k.params.trans h.params, fun a h1 h2 =>
    (k.mem a (by rw [h.params]; exact h1) (by rw [h.params]; exact h2)).trans (h.mem a h1 h2)⟩

theorem consoleFrame_afterRead (s : State) (a : Word) : ConsoleFrame s (s.afterRead a) := by
  obtain ⟨c, m, e, -, -, hm⟩ := s.afterRead_shape a
  rw [e]; exact ⟨rfl, rfl, rfl, hm⟩

theorem consoleFrame_setInput (s : State) (c : ConsoleInput) : ConsoleFrame s (s.setInput c) :=
  ⟨rfl, rfl, rfl, fun _ _ _ => rfl⟩

theorem consoleFrame_setOutput (s : State) (c : ConsoleOutput) : ConsoleFrame s (s.setOutput c) :=
  ⟨rfl, rfl, rfl, fun _ _ _ => rfl⟩

theorem consoleFrame_consoleOut (f : FaultKind) (b : Byte) (s : State) : ConsoleFrame s (consoleOut f b s).state := by
  rcases consoleOut_cases f b s with ⟨_, e⟩ | ⟨_, e⟩ <;> rw [e] <;> exact consoleFrame_setOutput _ _

theorem consoleFrame_consoleOutStr (f : FaultKind) (bs : List Byte) (s : State) :
    ConsoleFrame s (consoleOutStr f bs s).state := by
  rcases consoleOutStr_cases f bs s with ⟨t, e, c, q, rfl⟩ | ⟨t, e, c, q, rfl⟩ <;> rw [e] <;> exact consoleFrame_setOutput _ _

theorem consoleFrame_scanString (f g : FaultKind) (chars : Word → List Byte) :
    ∀ (n : Nat) (p : Word) (s : State), ConsoleFrame s (scanString f g chars n p s).state
  | 0, _, s => ConsoleFrame.refl s
  | n + 1, p, s => by
    rw [scanString]
    split
    · exact consoleFrame_afterRead s p
    · have h := (consoleFrame_afterRead s p).trans (consoleFrame_consoleOutStr f (chars (s.memRead p)) (s.afterRead p))
      cases e : consoleOutStr f (chars (s.memRead p)) (s.afterRead p) with
      | done t => rw [e] at h; exact h.trans (consoleFrame_scanString f g chars n (p + 1) t)
      | raised t k => rw [e] at h; exact h

/-- A sequence of writes raises no fault but the one it is given. -/
theorem consoleOutStr_raised {f k : FaultKind} {bs : List Byte} {s t : State} (h : consoleOutStr f bs s = .raised t k) : k = f := by
  rcases consoleOutStr_cases f bs s with ⟨u, e, -⟩ | ⟨u, e, -⟩ <;> rw [e] at h <;> cases h
  rfl

/-- A string scan raises no fault but the two it is given. -/
theorem scanString_raised {f g k : FaultKind} {chars : Word → List Byte} :
    ∀ {n : Nat} {p : Word} {s t : State}, scanString f g chars n p s = .raised t k → k = f ∨ k = g
  | 0, _, _, _, h => by cases h; exact .inr rfl
  | n + 1, p, s, t, h => by
    rw [scanString] at h
    split at h
    · cases h
    · cases e : consoleOutStr f (chars (s.memRead p)) (s.afterRead p) with
      | done u => rw [e] at h; exact scanString_raised h
      | raised u j => rw [e] at h; cases h; exact .inl (consoleOutStr_raised e)

end Sys2Proof.Machine
end

