-- ==== Sys2Proof/Tests/Slice0.lean ====
section
/-! SUPPORT. The model's own tests. Expected results are those of 95_test_vectors.md (W, K, T, R rows and the family tables),
worked there by hand from the rules; words are written out from the encodings of 30_encoding.md. Witnesses show that the
hypotheses of each statement can be met together. -/

namespace Sys2Proof.Tests

open Sys2Proof Sys2Proof.Machine

/-! ## Decoding: every row's word, bit by bit from R61 and R63 -/

theorem test_decode_add : decode 0b0001001010000011 = .add 1 2 3 := by decide
theorem test_decode_addi : decode 0b0001001010111111 = .addi 1 2 0b11111 := by decide
theorem test_decode_and : decode 0b0101010011000100 = .and 2 3 4 := by decide
theorem test_decode_andi : decode 0b0101010011101111 = .andi 2 3 0b01111 := by decide
theorem test_decode_not : decode 0b1001011100111111 = .not 3 4 := by decide
theorem test_decode_br : decode 0b0000010000000010 = .br 0b010 2 := by decide
theorem test_decode_jmp : decode 0b1100000010000000 = .jmp 2 := by decide
theorem test_decode_jsr : decode 0b0100100000000101 = .jsr 5 := by decide
theorem test_decode_jsrr : decode 0b0100000011000000 = .jsrr 3 := by decide
theorem test_decode_ld : decode 0b0010001000000010 = .ld 1 2 := by decide
theorem test_decode_ldi : decode 0b1010010000000001 = .ldi 2 1 := by decide
theorem test_decode_ldr : decode 0b0110100101111110 = .ldr 4 5 0b111110 := by decide
theorem test_decode_lea : decode 0b1110000111111111 = .lea 0 0b111111111 := by decide
theorem test_decode_st : decode 0b0011001000000010 = .st 1 2 := by decide
theorem test_decode_sti : decode 0b1011010000000001 = .sti 2 1 := by decide
theorem test_decode_str : decode 0b0111100101111110 = .str 4 5 0b111110 := by decide
theorem test_decode_trap : decode 0b1111000000100110 = .trap 0x26 := by decide
theorem test_decode_getc : decode 0b1111000000100000 = .getc := by decide
theorem test_decode_out : decode 0b1111000000100001 = .out := by decide
theorem test_decode_puts : decode 0b1111000000100010 = .puts := by decide
theorem test_decode_in : decode 0b1111000000100011 = .inChar := by decide
theorem test_decode_putsp : decode 0b1111000000100100 = .putsp := by decide
theorem test_decode_halt : decode 0b1111000100100101 = .halt := by decide
theorem test_decode_rti : decode 0b1000111111111111 = .rti 0xFFF := by decide
theorem test_decode_res : decode 0b1101000100100011 = .res 0x123 := by decide

/-- R67: ignored bits, one word for each form that has some. -/
theorem test_decode_ignored : decode 0x129B = .add 1 2 3 ∧ decode 0x54DC = .and 2 3 4 ∧ decode 0x9040 = .not 0 1 ∧
    decode 0xCEBF = .jmp 2 ∧ decode 0x46FF = .jsrr 3 ∧ decode 0xFF21 = .out := by decide

/-- The well-formedness check refuses a TRAP term whose vector has a row of its own. -/
theorem test_illformed_trap_service : (Instr.trap 0x20).wellFormed = false ∧ (Instr.trap 0x25).wellFormed = false := by decide

/-- ... and accepts the vectors on either side of the range. -/
theorem test_wellformed_trap_other : (Instr.trap 0x1F).wellFormed = true ∧ (Instr.trap 0x26).wellFormed = true := by decide

/-! ## A small state, and what one step leaves -/

/-- The spec's parameters, with one-byte texts for the OPEN ones. -/
def params : Params := ⟨0xFE00, 0xFE02, false, [0x3E], [0x21], .positive 0⟩

/-- Reset with those parameters, an input that has ended, and a host that accepts the next eight writes. -/
def quiet : State :=
  { State.reset with params := params, input := ⟨[], .ended, ⟨[], 0⟩, 0⟩, output := ⟨[], ⟨List.replicate 8 true, 0⟩⟩ }

/-- `quiet` with input bytes and poll answers. -/
def typed (bs : List Byte) (polls : List Bool) : State := quiet.setInput ⟨bs, .ended, ⟨polls, 0⟩, 0⟩

/-- `s` about to run the word `w` at `a`. -/
def running (s : State) (a w : Word) : State := (s.setPc a).setMem (s.mem.write a w)

/-- One step leads to a state that meets `p`. -/
def leadsTo (s : State) (p : State → Bool) : Bool :=
  match step s with
  | .next t => p t
  | .fault _ => false
  | .refused _ => false

/-- The step stops with this reason. -/
def stopsWith (s : State) (f : Fault) : Bool :=
  match step s with
  | .next _ => false
  | .fault g => f == g
  | .refused _ => false

/-- `run` after a fault. -/
def faulted (t : State) (f : FaultKind) : Bool := t.run == .halted (.fault f)

/-! ## Operate (95_test_vectors.md, Part 2) -/

theorem test_add_overflow : leadsTo (running (((quiet).setReg 2 0x7FFF).setReg 3 0x0001) 0x3000 0x1283) (fun t => t.reg 1 == 0x8000 && t.pc == 0x3001 && t.cond == 0x0004) = true := by decide

theorem test_add_carry_out : leadsTo (running ((((quiet).setReg 2 0xFFFF).setReg 3 0x0001).setCond 0x0001) 0x3000 0x1283) (fun t => t.reg 1 == 0x0000 && t.cond == 0x0002) = true := by decide

theorem test_addi_minus_one : leadsTo (running (quiet) 0x3000 0x12BF) (fun t => t.reg 1 == 0xFFFF && t.cond == 0x0004) = true := by decide

theorem test_addi_same_register : leadsTo (running ((quiet).setReg 1 0x0001) 0x3000 0x126F) (fun t => t.reg 1 == 0x0010 && t.cond == 0x0001) = true := by decide

theorem test_and_masks : leadsTo (running (((quiet).setReg 3 0xF0F0).setReg 4 0x3C3C) 0x3000 0x54C4) (fun t => t.reg 2 == 0x3030 && t.cond == 0x0001) = true := by decide

theorem test_andi_sign_extends : leadsTo (running ((quiet).setReg 3 0x1234) 0x3000 0x54F0) (fun t => t.reg 2 == 0x1230 && t.cond == 0x0001) = true := by decide

theorem test_andi_clears : leadsTo (running (((quiet).setReg 0 0xABCD).setCond 0x0004) 0x3000 0x5020) (fun t => t.reg 0 == 0x0000 && t.cond == 0x0002) = true := by decide

theorem test_not_all_bits : leadsTo (running ((quiet).setReg 4 0x00FF) 0x3000 0x973F) (fun t => t.reg 3 == 0xFF00 && t.cond == 0x0004) = true := by decide

theorem test_not_ignores_low_bits : leadsTo (running ((quiet).setReg 1 0x8000) 0x3000 0x9040) (fun t => t.reg 0 == 0x7FFF && t.cond == 0x0001) = true := by decide

/-! ## Control transfer -/

theorem test_br_taken_back : leadsTo (running ((quiet).setCond 0x0001) 0x3000 0x07FD) (fun t => t.pc == 0x2FFE && t.cond == 0x0001) = true := by decide

theorem test_br_not_taken : leadsTo (running (quiet) 0x3000 0x0805) (fun t => t.pc == 0x3001) = true := by decide

theorem test_jmp_ignores_other_bits : leadsTo (running ((quiet).setReg 2 0x1235) 0x3000 0xCEBF) (fun t => t.pc == 0x1235) = true := by decide

theorem test_jsr_wraps : leadsTo (running (quiet) 0xFFF0 0x4BFF) (fun t => t.reg 7 == 0xFFF1 && t.pc == 0x03F0) = true := by decide

theorem test_jsrr_links : leadsTo (running (((quiet).setReg 3 0x5000).setCond 0x0001) 0x3000 0x40C0) (fun t => t.reg 7 == 0x3001 && t.pc == 0x5000 && t.cond == 0x0001) = true := by decide

theorem test_jsrr_r7_reads_after_write : leadsTo (running ((quiet).setReg 7 0x6000) 0x3000 0x41C0) (fun t => t.reg 7 == 0x3001 && t.pc == 0x3001) = true := by decide

/-! ## Loads and the keyboard registers -/

theorem test_ld_negative : leadsTo (running ((quiet).memWrite 0x3003 0x8001) 0x3000 0x2202) (fun t => t.reg 1 == 0x8001 && t.cond == 0x0004) = true := by decide

theorem test_ldi_two_reads : leadsTo (running (((quiet).memWrite 0x3002 0x4000).memWrite 0x4000 0x002A) 0x3000 0xA401) (fun t => t.reg 2 == 0x002A && t.cond == 0x0001) = true := by decide

theorem test_ldr_destination_is_base : leadsTo (running (((quiet).setReg 5 0x4000).memWrite 0x401F 0x00C3) 0x3000 0x6B5F) (fun t => t.reg 5 == 0x00C3 && t.cond == 0x0001) = true := by decide

theorem test_ldr_wraps : leadsTo (running (((quiet).setReg 1 0xFFFF).memWrite 0x0000 0x9000) 0x3000 0x6041) (fun t => t.reg 0 == 0x9000 && t.cond == 0x0004) = true := by decide

theorem test_lea_flags_of_address : leadsTo (running (quiet) 0x8000 0xE1FF) (fun t => t.reg 0 == 0x8000 && t.pc == 0x8001 && t.cond == 0x0004) = true := by decide

theorem test_lea_wraps : leadsTo (running ((quiet).setCond 0x0001) 0xFFFF 0xE000) (fun t => t.reg 0 == 0x0000 && t.pc == 0x0000 && t.cond == 0x0002) = true := by decide

/-- K1 (here with a byte queued that has not arrived). -/
theorem test_keyboard_poll_without_key : leadsTo (running ((((typed [0x71] [false]).setReg 1 0xFE00).memWrite 0xFE00 0x1234).memWrite 0xFE02 0x0041) 0x3000 0x6040) (fun t => t.mem.read 0xFE00 == 0 && t.mem.read 0xFE02 == 0x0041 && t.reg 0 == 0 && t.cond == 0x0002 && t.input.pending == [0x71]) = true := by decide

/-- K2. -/
theorem test_keyboard_poll_with_key : leadsTo (running ((typed [0x71] [true]).setReg 1 0xFE00) 0x3000 0x6040) (fun t => t.mem.read 0xFE00 == 0x8000 && t.mem.read 0xFE02 == 0x0071 && t.reg 0 == 0x8000 && t.cond == 0x0004 && t.input.pending == []) = true := by decide

/-- K3. -/
theorem test_keyboard_data_read : leadsTo (running (((typed [0x71] [true]).setReg 1 0xFE00).memWrite 0xFE02 0x0071) 0x3000 0x6042) (fun t => t.reg 0 == 0x0071 && t.mem.read 0xFE00 == 0 && t.input.pending == [0x71]) = true := by decide

/-- K6. -/
theorem test_fetch_from_keyboard_status : leadsTo ((typed [0x61] [true]).setPc 0xFE00) (fun t => faulted t (.invalidOpcode 0xFE00 0x8000) && t.pc == 0xFE00 && t.mem.read 0xFE00 == 0x8000) = true := by decide

/-! ## Stores -/

theorem test_st_overwrites_itself : leadsTo (running ((quiet).setReg 1 0xBEEF) 0x3000 0x33FF) (fun t => t.mem.read 0x3000 == 0xBEEF && t.pc == 0x3001) = true := by decide

theorem test_sti_through_pointer : leadsTo (running (((quiet).setReg 2 0x00AB).memWrite 0x3002 0x4000) 0x3000 0xB401) (fun t => t.mem.read 0x4000 == 0x00AB && t.mem.read 0x3002 == 0x4000) = true := by decide

theorem test_str_source_is_base : leadsTo (running (((quiet).setReg 5 0x5000).setCond 0x0004) 0x3000 0x7B40) (fun t => t.mem.read 0x5000 == 0x5000 && t.cond == 0x0004) = true := by decide

theorem test_str_to_keyboard_status : leadsTo (running (((typed [0x61] [true]).setReg 0 0x1234).setReg 1 0xFE00) 0x3000 0x7040) (fun t => t.mem.read 0xFE00 == 0x1234 && t.input.pending == [0x61]) = true := by decide

/-! ## Trap routines -/

/-- T2. -/
theorem test_out_low_byte : leadsTo (running ((quiet).setReg 0 0x1241) 0x3000 0xF021) (fun t => t.out == [0x41] && t.reg 0 == 0x1241 && t.pc == 0x3001) = true := by decide

/-- R174. -/
theorem test_out_refused : leadsTo (running ((quiet.setOutput ⟨[], ⟨[false], 0⟩⟩).setReg 0 0x0041) 0x3000 0xF021) (fun t => t.out == [] && faulted t (.consoleIoError 0x3000 .out .write) && t.pc == 0x3000) = true := by decide

/-- T3. -/
theorem test_getc_byte : leadsTo (running (typed [0x41] []) 0x3000 0xF020) (fun t => t.reg 0 == 0x0041 && t.out == [] && t.cond == 0x0002) = true := by decide

/-- T4. -/
theorem test_getc_end_of_input : leadsTo (running (quiet) 0x3000 0xF020) (fun t => faulted t (.consoleIoError 0x3000 .getc .read) && t.pc == 0x3000) = true := by decide

/-- R183, I8: a silent host leaves GETC without a successor. -/
theorem test_getc_silent : stopsWith (running (quiet.setInput ⟨[], .silent, ⟨[], 0⟩, 0⟩) 0x3000 0xF020) .inputBlocked = true := by decide

/-- T5. -/
theorem test_in_echoes_and_sets_flags : leadsTo (running (typed [0x79] []) 0x3000 0xF023) (fun t => t.out == [0x3E, 0x79] && t.reg 0 == 0x0079 && t.cond == 0x0001) = true := by decide

/-- T6. -/
theorem test_in_zero_byte : leadsTo (running ((typed [0x00] []).setCond 0x0001) 0x3000 0xF023) (fun t => t.out == [0x3E, 0x00] && t.reg 0 == 0x0000 && t.cond == 0x0002) = true := by decide

/-- T9. -/
theorem test_puts_ignores_high_bytes : leadsTo (running ((((quiet).setReg 0 0x4000).memWrite 0x4000 0x0141).memWrite 0x4001 0x0100) 0x3000 0xF022) (fun t => t.out == [0x41, 0x00] && t.reg 0 == 0x4000) = true := by decide

/-- T11. -/
theorem test_puts_past_the_top : leadsTo (running ((((quiet).setReg 0 0xFFFE).memWrite 0xFFFE 0x0041).memWrite 0xFFFF 0x0042) 0x3000 0xF022) (fun t => t.out == [0x41, 0x42] && faulted t (.stringScanWrap 0x3000 0xFFFE)) = true := by decide

/-- T10. -/
theorem test_putsp_packed : leadsTo (running (((((quiet).setReg 0 0x4000).memWrite 0x4000 0x4948).memWrite 0x4001 0x0021).memWrite 0x4002 0x4100) 0x3000 0xF024) (fun t => t.out == [0x48, 0x49, 0x21, 0x00, 0x41]) = true := by decide

/-- T12, T13. -/
theorem test_halt_announces : leadsTo (running (quiet) 0x3000 0xF125) (fun t => t.out == [0x21] && t.run == .halted .clean && t.pc == 0x3001 && t.exitStatus == some 0) = true := by decide

/-- R81: no step after HALT. -/
theorem test_halted_stops : stopsWith (quiet.setHalted .clean) .halted = true := by decide

/-- T14. -/
theorem test_trap_unimplemented : leadsTo (running (((quiet).setReg 0 0x0001).setCond 0x0001) 0x3001 0xF026) (fun t => faulted t (.unimplementedTrap 0x3001 0x26) && t.pc == 0x3001 && t.reg 0 == 1 && t.cond == 0x0001 && t.exitStatus == some 1) = true := by decide

/-- T16. -/
theorem test_trap_links_when_asked : leadsTo (running ({ quiet with params := { params with trapLinksR7 := true } }.setReg 0 0x0041) 0x3000 0xF021) (fun t => t.out == [0x41] && t.reg 7 == 0x3001) = true := by decide

/-! ## Reserved opcodes, reset, boot -/

/-- R-2, W8. -/
theorem test_rti_faults : leadsTo (running (((quiet).setReg 1 0x1234).setCond 0x0001) 0x3000 0x8FFF) (fun t => faulted t (.invalidOpcode 0x3000 0x8FFF) && t.pc == 0x3000 && t.reg 1 == 0x1234 && t.cond == 0x0001) = true := by decide

/-- R-3. -/
theorem test_res_faults : leadsTo (running (quiet) 0x4000 0xD123) (fun t => faulted t (.invalidOpcode 0x4000 0xD123) && t.pc == 0x4000) = true := by decide

/-- Every row of the opcode table runs as the first instruction after reset. -/
theorem test_every_row_runs_after_reset :
    ([0x1000, 0x1020, 0x5000, 0x5020, 0x9000, 0x0000, 0xC000, 0x4800, 0x4000, 0x2000, 0xA000, 0x6000, 0xE000, 0x3000, 0xB000,
      0x7000, 0xF000, 0xF020, 0xF021, 0xF022, 0xF023, 0xF024, 0xF025, 0x8000, 0xD000].all fun w =>
      leadsTo (State.reset.withFetchWord 16 w) fun _ => true) = true := by decide

/-- W4: an image of origin 0x3000 and words 1, 2, 3. -/
theorem test_boot_image : (State.boot [.bytes [0x30, 0x00, 0x00, 0x01, 0x00, 0x02, 0x00, 0x03]]).mem =
    [(0x3000, 0x0001), (0x3001, 0x0002), (0x3002, 0x0003)] := by decide

/-- R193: a final odd byte is ignored and words past 0xFFFF are discarded. -/
theorem test_boot_edges : (State.boot [.bytes [0xFF, 0xFF, 0x00, 0x41, 0x00, 0x42, 0x07]]).mem = [(0xFFFF, 0x0041)] := by decide

/-- R192, R194: the second image overwrites; the third, of one byte, ends the boot. -/
theorem test_boot_fails : (State.boot [.bytes [0x40, 0x00, 0x00, 0x41], .bytes [0x40, 0x00, 0x12, 0x34], .bytes [0x40]]).mem =
      [(0x4000, 0x1234)] ∧
    (State.boot [.bytes [0x40, 0x00, 0x00, 0x41], .bytes [0x40, 0x00, 0x12, 0x34], .bytes [0x40]]).run =
      .halted (.bootFailure .imageTruncatedError) := by decide

/-! ## Witnesses: concrete states and operands that meet the hypotheses of each statement together

One theorem for each statement of Certificates/Slice0/Obligations.lean that has hypotheses, named after it; a conjunct for
each clause, at a boundary value where the clause has a range. -/

/-- `exec` on `s` leads to a state that meets `p`. -/
def execLeadsTo (i : Instr) (s : State) (p : State → Bool) : Bool :=
  match exec i s with
  | .next t => p t
  | .fault _ => false
  | .refused _ => false

theorem witness_DecodeOfEncodeIsIdentity : (Instr.trap 0x26).wellFormed = true ∧ (Instr.trap 0x1F).wellFormed = true ∧
    (Instr.not 7 0).wellFormed = true := by decide

theorem witness_IgnoredBitsDoNotChangeDecoding :
    ((0x003F : Word) &&& ~~~ ignoredBits 0x9700 = 0 ∧ (0x0E3F : Word) &&& ~~~ ignoredBits 0xC080 = 0) ∧
    bits 0x8FFF 15 12 = 0x8 ∧ bits 0xD000 15 12 = 0xD := by decide

theorem witness_SignExtensionKeepsTheSignedValue :
    (0 < 1 ∧ 1 ≤ 16 ∧ (sext (1#1)).toInt = -1) ∧ (0 < 16 ∧ 16 ≤ 16 ∧ (sext (0x8000#16)).toInt = -32768) := by decide

/-- The origin, the last loaded address (0xFFFF, two words before the image ends), and the addresses on either side. -/
theorem witness_ImageWordsLandFromTheOrigin :
    Memory.wf [(0x0002, 0x0007)] = true ∧ ([0x07] : List Byte).length ≤ 1 ∧
    (0x4000 : Word).toNat = (0x40 : Byte).toNat * 256 + (0x00 : Byte).toNat + 0 ∧
    (0xFFFF : Word).toNat = (0xFF : Byte).toNat * 256 + (0xFE : Byte).toNat + 1 ∧
    (0x3FFF : Word).toNat < (0x40 : Byte).toNat * 256 + (0x00 : Byte).toNat ∧
    (0x40 : Byte).toNat * 256 + (0x00 : Byte).toNat + [(0x0041 : Word)].length ≤ (0x4001 : Word).toNat := by decide

theorem witness_FailingImageEndsTheBoot :
    ([] : List Byte).length < 2 ∧ ([0x40] : List Byte).length < 2 ∧
    loadImage quiet.mem .unreadable = .error .imageIoError ∧
    loadImage quiet.mem (.bytes [0x40]) = .error .imageTruncatedError := by decide

theorem witness_BootSetsMemoryOnly : (State.boot []).run = .running ∧
    (State.boot [.bytes [0x40, 0x00, 0x00, 0x41]]).run = .running := by decide

theorem witness_ExitStatusIsZeroOnlyAfterHalt :
    quiet.run = .running ∧ (quiet.setHalted .clean).run = .halted .clean ∧
    (quiet.setHalted (.fault (.stringScanWrap 0x3000 0xFFFF))).run = .halted (.fault (.stringScanWrap 0x3000 0xFFFF)) ∧
    (State.boot [.unreadable]).run = .halted (.bootFailure .imageIoError) := by decide

theorem witness_StepExecutesTheDecodedInstruction :
    (running quiet 0x3000 0x1283).run = .running ∧
    decode (running quiet 0x3000 0x1283).fetchWord = .add 1 2 3 ∧
    (running quiet 0x3000 0x1283).pc ≠ (running quiet 0x3000 0x1283).params.kbsrAddr ∧
    decode ((running quiet 0x3000 0x1283).mem.read (running quiet 0x3000 0x1283).pc) = .add 1 2 3 := by decide

/-- With a key ready, and without one. -/
theorem witness_FetchFromKeyboardStatus :
    (((typed [0x61] [true]).setPc 0xFE00).mem.wf = true ∧
      ((typed [0x61] [true]).setPc 0xFE00).params.kbsrAddr ≠ ((typed [0x61] [true]).setPc 0xFE00).params.kbdrAddr ∧
      ((typed [0x61] [true]).setPc 0xFE00).run = .running ∧
      ((typed [0x61] [true]).setPc 0xFE00).pc = ((typed [0x61] [true]).setPc 0xFE00).params.kbsrAddr ∧
      ((typed [0x61] [true]).setPc 0xFE00).input.avail = true) ∧
    (((typed [] [true]).setPc 0xFE00).mem.wf = true ∧
      ((typed [] [true]).setPc 0xFE00).params.kbsrAddr ≠ ((typed [] [true]).setPc 0xFE00).params.kbdrAddr ∧
      ((typed [] [true]).setPc 0xFE00).run = .running ∧
      ((typed [] [true]).setPc 0xFE00).pc = ((typed [] [true]).setPc 0xFE00).params.kbsrAddr ∧
      ((typed [] [true]).setPc 0xFE00).input.avail = false) := by decide

theorem witness_HaltedEngineTakesNoStep : (quiet.setHalted .clean).run = .halted .clean := by decide

theorem witness_RunningEngineStepsUnlessInputIsSilent : (running quiet 0x3000 0x1283).run = .running ∧
    (running (quiet.setInput ⟨[], .silent, ⟨[], 0⟩, 0⟩) 0x3000 0xF023).run = .running ∧
    stopsWith (running (quiet.setInput ⟨[], .silent, ⟨[], 0⟩, 0⟩) 0x3000 0xF023) .inputBlocked = true := by decide

/-- The encoding clauses of ADD, AND and NOT; ADD and AND in each mode. -/
theorem witness_operate_words : bits 0x1FDF 15 12 = 0x1 ∧ bits 0x1FDF 5 5 = 0 ∧ bits 0x1020 15 12 = 0x1 ∧
    bits 0x1020 5 5 = 1 ∧ bits 0x5FDF 15 12 = 0x5 ∧ bits 0x5020 15 12 = 0x5 ∧ bits 0x9000 15 12 = 0x9 := by decide

theorem witness_ImmediateAndRegisterModesAgree : ((quiet.setReg 3 0xFFF0).reg 3 = (0x10#5).signExtend 16) ∧
    ((quiet.setReg 3 0x000F).reg 3 = (0x0F#5).signExtend 16) := by decide

/-- The encoding clauses of BR, JMP, JSR and JSRR. -/
theorem witness_control_words : bits 0x0FFF 15 12 = 0x0 ∧ bits 0xC1C0 15 12 = 0xC ∧
    (bits 0x4FFF 15 12 = 0x4 ∧ bits 0x4FFF 11 11 = 1) ∧ (bits 0x41C0 15 12 = 0x4 ∧ bits 0x41C0 11 11 = 0) := by decide

theorem witness_BrMaskBitsSelectTheFlags :
    (quiet.setCond 0x0004).CondLegal ∧ quiet.CondLegal ∧ (quiet.setCond 0x0001).CondLegal ∧
    execLeadsTo (.br 0b100 0x0FF) (quiet.setCond 0x0004) (fun t => t.pc == 0x30FF) = true ∧
    execLeadsTo (.br 0b011 0x0FF) (quiet.setCond 0x0004) (fun t => t.pc == 0x3000) = true := by decide

theorem witness_WriteChangesItsWordOnly : quiet.mem.wf = true ∧
    (quiet.memWrite 0xFE00 0x1234).mem.wf = true := by decide

theorem witness_CanonicalMemoriesThatReadAlikeAreEqual :
    Memory.wf [(0x0000, 0x0001), (0xFFFF, 0x8000)] = true ∧
    ∀ a : Word, Memory.read [(0x0000, 0x0001), (0xFFFF, 0x8000)] a =
      (Memory.write (Memory.write [] 0xFFFF 0x8000) 0x0000 0x0001).read a := ⟨by decide, fun _ => rfl⟩

/-- A key ready; no key though the host is asked; an input that has ended. -/
theorem witness_KeyboardStatusReadRefreshes :
    ((typed [0x71] [true]).mem.wf = true ∧ (typed [0x71] [true]).params.kbsrAddr ≠ (typed [0x71] [true]).params.kbdrAddr ∧
      (typed [0x71] [true]).input.avail = true ∧ (typed [0x71] [true]).input.pending = [0x71]) ∧
    (quiet.input.pending = [] ∧ quiet.input.tail = .ended) ∧
    ((typed [0x71] [false]).mem.wf = true ∧
      (typed [0x71] [false]).params.kbsrAddr ≠ (typed [0x71] [false]).params.kbdrAddr ∧
      (typed [0x71] [false]).input.avail = false) := by decide

theorem witness_KeyboardDataReadIsPlain : quiet.params.kbsrAddr ≠ quiet.params.kbdrAddr := by decide

/-- A queued byte; an empty queue that has ended, that is silent, and whose answers are free. -/
theorem witness_PollAndReadAnswers :
    ((typed [0x71] [true]).input.pending = [0x71] ∧ (typed [0x71] [true]).input.avail = true) ∧
    (quiet.input.pending = [] ∧ quiet.input.tail = .ended ∧ quiet.input.tail ≠ .free) ∧
    ((quiet.setInput ⟨[], .silent, ⟨[], 0⟩, 0⟩).input.pending = [] ∧
      (quiet.setInput ⟨[], .silent, ⟨[], 0⟩, 0⟩).input.tail = .silent) ∧
    (State.reset.input.pending = [] ∧ State.reset.input.tail = .free) := by decide

/-- The encoding clauses of the loads and the stores. -/
theorem witness_memory_words : bits 0x2FFF 15 12 = 0x2 ∧ bits 0xAFFF 15 12 = 0xA ∧ bits 0x6FFF 15 12 = 0x6 ∧
    bits 0xEFFF 15 12 = 0xE ∧ bits 0x3FFF 15 12 = 0x3 ∧ bits 0xBFFF 15 12 = 0xB ∧ bits 0x7FFF 15 12 = 0x7 := by decide

/-- LD, LDR and STI away from KBSR, at the word before it and (where the clause reads through it) at KBSR itself. -/
theorem witness_load_addresses :
    ((quiet.setPc 0xFE00).pc + (0x1FF#9).signExtend 16 ≠ quiet.params.kbsrAddr) ∧
    ((quiet.setReg 1 0xFE01).reg 1 + (0x00#6).signExtend 16 ≠ quiet.params.kbsrAddr) ∧
    (execLeadsTo (.ld 1 0) ((typed [0x71] [true]).setPc 0xFE00) (fun t => t.reg 1 == 0x8000) = true) ∧
    (execLeadsTo (.sti 1 0) ((typed [0x71] [true]).setPc 0xFE00) (fun t => t.mem.read 0xFE02 == 0x0071) = true) := by decide

theorem witness_LdiLoadsThroughThePointer :
    ((quiet.memWrite 0x3002 0x4000).setPc 0x3002).pc + (0#9).signExtend 16 ≠ quiet.params.kbsrAddr ∧
    ((quiet.memWrite 0x3002 0x4000).setPc 0x3002).mem.read
      (((quiet.memWrite 0x3002 0x4000).setPc 0x3002).pc + (0#9).signExtend 16) ≠ quiet.params.kbsrAddr ∧
    execLeadsTo (.ldi 1 0) (((typed [0x71] [true]).memWrite 0x3002 0xFE00).setPc 0x3002) (fun t => t.reg 1 == 0x8000) = true :=
  by decide

/-- ST, STI and STR on a canonical memory, at KBSR and at the last address. -/
theorem witness_stores : quiet.mem.wf = true ∧
    execLeadsTo (.st 1 0) ((quiet.setPc 0xFE00).setReg 1 7) (fun t => t.mem.read 0xFE00 == 7) = true ∧
    execLeadsTo (.str 1 2 0x3F) (quiet.setReg 1 7) (fun t => t.mem.read 0xFFFF == 7) = true := by decide

theorem witness_StoredWordIsFetchedNext :
    (running (quiet.setReg 1 0x1283) 0x3000 0x3200).mem.wf = true ∧
    (running (quiet.setReg 1 0x1283) 0x3000 0x3200).run = .running ∧
    (running (quiet.setReg 1 0x1283) 0x3000 0x3200).pc ≠ quiet.params.kbsrAddr ∧
    (running (quiet.setReg 1 0x1283) 0x3000 0x3200).pc + 1 ≠ quiet.params.kbsrAddr ∧
    decode ((running (quiet.setReg 1 0x1283) 0x3000 0x3200).mem.read 0x3000) = .st 1 0 := by decide

/-- The dispatch: the vectors on either side of the service range. -/
theorem witness_TrapSelectsByItsVector : bits 0xF025 15 12 = 0xF ∧ (0x1F : Byte) < 0x20 ∧ (0x25 : Byte) < 0x26 := by decide

theorem witness_GetcReadsAByteIntoR0 :
    (typed [0x41] []).input.read = some (some 0x41, ⟨[], .ended, ⟨[], 0⟩, 0⟩) ∧
    quiet.input.read = some (none, quiet.input) := by decide

theorem witness_UnansweredReadHasNoSuccessor : (quiet.setInput ⟨[], .silent, ⟨[], 0⟩, 0⟩).InputSilent ∧
    acceptsNext quiet.params.inPrompt.length (quiet.setInput ⟨[], .silent, ⟨[], 0⟩, 0⟩).output.accepts = true := by decide

theorem witness_OutWritesTheLowByteOfR0 : quiet.output.accepts.next Config.freeAccept = true ∧
    (quiet.setOutput ⟨[], ⟨[false], 0⟩⟩).output.accepts.next Config.freeAccept = false := by decide

/-- "AB" one character a word at 0x4000. -/
def held : State := ((quiet.memWrite 0x4000 0x0141).memWrite 0x4001 0x4200).setReg 0 0x4000

theorem witness_PutsWritesTheString :
    HoldsWords held.mem held.params.kbsrAddr (held.reg 0) [0x0141, 0x4200] ∧
    (held.reg 0).toNat + 2 ≤ 0xFFFF ∧ held.mem.read (held.reg 0 + BitVec.ofNat 16 2) = 0x0000 ∧
    held.reg 0 + BitVec.ofNat 16 2 ≠ held.params.kbsrAddr ∧ acceptsNext 2 held.output.accepts = true :=
  ⟨⟨by decide, by simp, by decide, by decide⟩, by decide, by decide, by decide, by decide⟩

/-- The empty string, whose zero word is the last word of memory, meets them too. -/
theorem witness_PutsWritesTheString_at_the_top :
    HoldsWords quiet.mem quiet.params.kbsrAddr ((quiet.setReg 0 0xFFFF).reg 0) [] ∧
    ((quiet.setReg 0 0xFFFF).reg 0).toNat + 0 ≤ 0xFFFF ∧ quiet.mem.read 0xFFFF = 0x0000 :=
  ⟨⟨by decide, by simp, by decide, by decide⟩, by decide, by decide⟩

theorem witness_PutspWritesThePackedString :
    HoldsWords held.mem held.params.kbsrAddr (held.reg 0) [0x0141, 0x4200] ∧
    (held.reg 0).toNat + 2 ≤ 0xFFFF ∧ held.mem.read (held.reg 0 + BitVec.ofNat 16 2) = 0x0000 ∧
    held.reg 0 + BitVec.ofNat 16 2 ≠ held.params.kbsrAddr ∧
    acceptsNext (([0x0141, 0x4200] : List Word).flatMap lowThenHigh).length held.output.accepts = true :=
  ⟨⟨by decide, by simp, by decide, by decide⟩, by decide, by decide, by decide, by decide⟩

/-- A string of the two last words of memory. -/
def heldAtTop : State := ((quiet.memWrite 0xFFFE 0x0141).memWrite 0xFFFF 0x4200).setReg 0 0xFFFE

theorem witness_StringPastTheTopRaisesScanWrap :
    HoldsWords heldAtTop.mem heldAtTop.params.kbsrAddr (heldAtTop.reg 0) [0x0141, 0x4200] ∧
    (heldAtTop.reg 0).toNat + 2 = 0x10000 ∧ acceptsNext 2 heldAtTop.output.accepts = true ∧
    acceptsNext (([0x0141, 0x4200] : List Word).flatMap lowThenHigh).length heldAtTop.output.accepts = true :=
  ⟨⟨by decide, by simp, by decide, by decide⟩, by decide, by decide, by decide⟩

/-- The loop ends at a zero word: for PUTS after one character, for PUTSP at once. -/
theorem witness_StringRoutinesFollowTheLoop_zeroWord :
    (∃ u, Scans lowByteOnly 0x4001 held .zeroWord u) ∧ (∃ u, Scans lowThenHigh 0x4002 held .zeroWord u) :=
  ⟨⟨_, .char 0x4001 held _ _ (by decide) (by decide) (by decide) (.stop 0x4002 _ (by decide))⟩,
    ⟨_, .stop 0x4002 held (by decide)⟩⟩

/-- The loop wraps, in both routines. -/
theorem witness_StringRoutinesFollowTheLoop_wrapped :
    (∃ u, Scans lowByteOnly 0xFFFF heldAtTop .wrapped u) ∧ (∃ u, Scans lowThenHigh 0xFFFF heldAtTop .wrapped u) :=
  ⟨⟨_, .wrap heldAtTop (by decide) (by decide)⟩, ⟨_, .wrap heldAtTop (by decide) (by decide)⟩⟩

/-- A write fails: in PUTS at once, in PUTSP after the first of the word's two characters. -/
theorem witness_StringRoutinesFollowTheLoop_writeFailed :
    (∃ u, Scans lowByteOnly 0x4000 (held.setOutput ⟨[], ⟨[false], 0⟩⟩) .writeFailed u) ∧
    (∃ u, Scans lowThenHigh 0x4000 (held.setOutput ⟨[], ⟨[true, false], 0⟩⟩) .writeFailed u) :=
  ⟨⟨_, .fail 0x4000 _ 0 (by decide) (by decide) (by decide) (by decide)⟩,
    ⟨_, .fail 0x4000 _ 1 (by decide) (by decide) (by decide) (by decide)⟩⟩

theorem witness_InPromptsReadsEchoesAndSetsFlags :
    ((typed [0x00] []).input.read = some (some 0x00, ⟨[], .ended, ⟨[], 0⟩, 0⟩) ∧
      acceptsNext ((typed [0x00] []).params.inPrompt.length + 1) (typed [0x00] []).output.accepts = true) ∧
    (quiet.input.read = some (none, quiet.input) ∧
      acceptsNext quiet.params.inPrompt.length quiet.output.accepts = true) := by decide

theorem witness_HaltAnnouncesAndEndsCleanly :
    acceptsNext quiet.params.haltAnnounce.length quiet.output.accepts = true := by decide

/-- n = 0, shorter than either text, and n = the prompt's length, with a byte to echo. -/
theorem witness_RefusedWriteRaisesConsoleIoError :
    (acceptsNext 0 (⟨[false], 0⟩ : Answers) = true ∧
      (answersAfter 0 (⟨[false], 0⟩ : Answers)).next Config.freeAccept = false ∧
      0 < params.haltAnnounce.length ∧ 0 < params.inPrompt.length) ∧
    (acceptsNext 1 (⟨[true, false], 0⟩ : Answers) = true ∧
      (answersAfter 1 (⟨[true, false], 0⟩ : Answers)).next Config.freeAccept = false ∧
      1 = params.inPrompt.length ∧
      (typed [0x41] []).input.read = some (some 0x41, ⟨[], .ended, ⟨[], 0⟩, 0⟩)) := by decide

theorem witness_ReservedOpcodesRaiseInvalidOpcode : bits 0x8000 15 12 = 0x8 ∧ bits 0x8FFF 15 12 = 0x8 ∧
    bits 0xD000 15 12 = 0xD ∧ bits 0xDFFF 15 12 = 0xD := by decide

theorem witness_StepKeepsTheInvariant : (running quiet 0x3000 0x1283).Inv ∧
    leadsTo (running quiet 0x3000 0x1283) (fun _ => true) = true :=
  ⟨⟨by decide, by decide, by decide, by decide⟩, by decide⟩

/-- A step that writes a byte, and one that takes one. -/
theorem witness_OutputOnlyGrowsAndInputIsTakenInOrder :
    leadsTo (running quiet 0x3000 0xF021) (fun t => t.out == [0x00]) = true ∧
    leadsTo (running (typed [0x41, 0x42] []) 0x3000 0xF020) (fun t => t.input.pending == [0x42]) = true := by decide

theorem witness_OnlyStoresWriteMemory : isStore (.ldr 0 1 0) = false ∧
    execLeadsTo (.ldr 0 1 0) ((typed [0x71] [true]).setReg 1 0xFE00) (fun _ => true) = true ∧
    (0xFE01 : Word) ≠ quiet.params.kbsrAddr ∧ (0xFE01 : Word) ≠ quiet.params.kbdrAddr := by decide

theorem witness_OnlyListedInstructionsWriteCond : writesCond (.str 0 1 0) = false ∧
    execLeadsTo (.str 0 1 0) quiet (fun _ => true) = true := by decide

theorem witness_OnlyListedRegistersAreWritten :
    execLeadsTo .getc (typed [0x41] []) (fun t => t.reg 0 == 0x41 && t.reg 1 == 0) = true := by decide

theorem witness_OnlyControlTransfersWritePc : writesPc .out = false ∧
    execLeadsTo .out quiet (fun t => t.run == .running) = true := by decide

/-- A running step that raises each kind of fault. -/
theorem witness_EveryFaultIsPrecise :
    (running quiet 0x3000 0x8000).run = .running ∧ (running quiet 0x3000 0x8000).pc ≠ quiet.params.kbsrAddr ∧
    decode (running quiet 0x3000 0x8000).fetchWord ≠ .puts ∧ decode (running quiet 0x3000 0x8000).fetchWord ≠ .putsp ∧
    leadsTo (running quiet 0x3000 0x8000) (fun t => faulted t (.invalidOpcode 0x3000 0x8000)) = true ∧
    leadsTo (running quiet 0x3000 0xF01F) (fun t => faulted t (.unimplementedTrap 0x3000 0x1F)) = true ∧
    leadsTo (running quiet 0x3000 0xF023) (fun t => faulted t (.consoleIoError 0x3000 .inChar .read)) = true ∧
    leadsTo (running (heldAtTop.setReg 0 0xFFFF) 0x3000 0xF024)
      (fun t => faulted t (.stringScanWrap 0x3000 0xFFFF)) = true := by decide

/-- A running step that raises each fault with each cause. -/
theorem witness_EveryFaultHasItsListedCause :
    leadsTo (running quiet 0x3000 0xDFFF) (fun t => faulted t (.invalidOpcode 0x3000 0xDFFF)) = true ∧
    leadsTo (running quiet 0x3000 0xF026) (fun t => faulted t (.unimplementedTrap 0x3000 0x26)) = true ∧
    leadsTo (running quiet 0x3000 0xF020) (fun t => faulted t (.consoleIoError 0x3000 .getc .read)) = true ∧
    leadsTo (running (held.setOutput ⟨[], ⟨[false], 0⟩⟩) 0x3000 0xF022)
      (fun t => faulted t (.consoleIoError 0x3000 .puts .write)) = true ∧
    leadsTo (running heldAtTop 0x3000 0xF022) (fun t => faulted t (.stringScanWrap 0x3000 0xFFFE)) = true := by decide

theorem witness_OnlyHaltEndsTheRunCleanly : (running quiet 0x3000 0xF025).run = .running ∧
    leadsTo (running quiet 0x3000 0xF025) (fun t => t.run == .halted .clean) = true := by decide

end Sys2Proof.Tests
end

section
/-! PROOF. The widening of fields (00_scope.md R9). -/

namespace Sys2Proof.Machine

/-- R9 bit by bit: the field's own bits stay, and its top bit fills every higher bit of the word. -/
theorem getLsbD_sext {n i : Nat} (v : BitVec n) (hn : 0 < n) (hi : i < 16) :
    (sext v).getLsbD i = if i < n then v.getLsbD i else v.getLsbD (n - 1) := by
  rw [sext_eq_signExtend hn, BitVec.getLsbD_signExtend, BitVec.msb_eq_getLsbD_last]
  simp [hi]

/-- A field no wider than a word keeps its two's-complement value. -/
theorem toInt_sext {n : Nat} (v : BitVec n) (hn : 0 < n) (hw : n ≤ 16) : (sext v).toInt = v.toInt := by
  rw [sext_eq_signExtend hn, BitVec.toInt_signExtend_of_le hw]

/-- Settles O5: R9's formula is the library's sign extension, read bit by bit and as a signed value. -/
theorem signExtensionKeepsTheSignedValue : Obligations.SignExtensionKeepsTheSignedValue := by
  intro n v hn hw
  exact ⟨fun _ hi => getLsbD_sext v hn hi, toInt_sext v hn hw⟩

end Sys2Proof.Machine
end

section
/-! PROOF. What every step keeps: the invariant, the counter and the parameters, the order of output and input (10_state.md
R28, R29, R33, R34). -/

namespace Sys2Proof.Machine

/-- R80, R81: a step with a next state is a running engine's, and executes the decoded word on the fetched state. -/
theorem exec_of_step {s t : State} (h : step s = .next t) :
    s.run = .running ∧ exec (decode s.fetchWord) s.fetched = .next t := by
  unfold step at h
  split at h
  · cases h
  · next running => exact ⟨running, h⟩

theorem preserves_fetched (s : State) : Preserves s s.fetched :=
  (preserves_afterRead s s.pc).trans (preserves_setPc _ _)

@[simp] theorem run_fetched (s : State) : s.fetched.run = s.run := by simp [State.fetched]

/-- What every instruction keeps, every step keeps. -/
theorem step_preserves {s t : State} (h : step s = .next t) : Preserves s t :=
  (preserves_fetched s).trans (exec_preserves (exec_of_step h).2)

theorem Preserves.inv {s t : State} (h : Preserves s t) (inv : s.Inv) : t.Inv where
  memWf := h.memWf inv.memWf
  condLegal := h.condLegal inv.condLegal
  countZero := h.fixed.1.trans inv.countZero
  keyboardDistinct := by rw [h.fixed.2]; exact inv.keyboardDistinct

/-- Settles O50: each clause of the invariant is one of the parts that no step disturbs. -/
theorem stepKeepsTheInvariant : Obligations.StepKeepsTheInvariant :=
  fun _ _ inv h => (step_preserves h).inv inv

/-- Settles O51, from the same frame of a step: output is only appended to, queued input only taken from its front. -/
theorem outputOnlyGrowsAndInputIsTakenInOrder : Obligations.OutputOnlyGrowsAndInputIsTakenInOrder := by
  intro s t h
  obtain ⟨⟨count, params⟩, -, -, ⟨written, out⟩, ⟨taken, input⟩⟩ := step_preserves h
  exact ⟨count, params, ⟨written, out.symm⟩, ⟨taken, input.symm⟩⟩

/-- Settles O7: the values R190 gives the components, and R7's two addresses. -/
theorem resetSatisfiesTheInvariant : Obligations.ResetSatisfiesTheInvariant where
  memWf := rfl
  condLegal := .inr (.inl rfl)
  countZero := rfl
  keyboardDistinct := show (0xFE00 : Word) ≠ 0xFE02 by decide

end Sys2Proof.Machine
end

section
/-! PROOF. BR's mask against a legal COND (30_encoding.md R68, 41_control.md R110). -/

namespace Sys2Proof.Machine

/-- Each flag of R25 is one bit of COND, and the AND of R110 picks the mask bit that stands above it. -/
theorem mask_and_flag (nzp : BitVec 3) :
    (nzp.setWidth 16 &&& condN != 0) = nzp.getLsbD 2 ∧ (nzp.setWidth 16 &&& condZ != 0) = nzp.getLsbD 1 ∧
    (nzp.setWidth 16 &&& condP != 0) = nzp.getLsbD 0 := by
  revert nzp; decide

/-- With a legal COND, BR's test asks for the mask bit of the flag that holds. -/
theorem branchTaken_iff {s : State} (legal : s.CondLegal) (nzp : BitVec 3) :
    branchTaken nzp s = true ↔ (nzp.getLsbD 2 = true ∧ s.cond = condN) ∨ (nzp.getLsbD 1 = true ∧ s.cond = condZ) ∨
      (nzp.getLsbD 0 = true ∧ s.cond = condP) := by
  obtain ⟨n, z, p⟩ := mask_and_flag nzp
  unfold branchTaken
  rcases legal with c | c | c <;> rw [c]
  · rw [n]; simp [condN, condZ, condP]
  · rw [z]; simp [condN, condZ, condP]
  · rw [p]; simp [condN, condZ, condP]

theorem branchTaken_none (s : State) : branchTaken 0 s = false := by simp [branchTaken]

theorem branchTaken_all {s : State} (legal : s.CondLegal) : branchTaken 0b111 s = true := by
  rw [branchTaken_iff legal]
  rcases legal with c | c | c <;> simp [c]

/-- BR goes to its target or leaves PC at the next word (R110). -/
theorem exec_br (nzp : BitVec 3) (off9 : BitVec 9) (s : State) :
    ∃ t, exec (.br nzp off9) s = .next t ∧
      t.pc = if branchTaken nzp s then s.pc + off9.signExtend 16 else s.pc := by
  refine ⟨_, rfl, ?_⟩
  split
  · rw [State.pc_setPc, pcRelative, sext_eq_signExtend (by decide)]
  · rfl

/-- Settles O21: the test is the one of `branchTaken_iff`; mask 000 has no bit for the flag that holds, 111 has it. -/
theorem brMaskBitsSelectTheFlags : Obligations.BrMaskBitsSelectTheFlags := by
  intro s nzp off9 legal
  obtain ⟨t, executes, pc⟩ := exec_br nzp off9 s
  refine ⟨t, executes, ?_, ?_, ?_⟩
  · rw [pc]; exact if_congr (branchTaken_iff legal nzp) rfl rfl
  · rintro rfl; rw [pc, branchTaken_none]; rfl
  · rintro rfl; rw [pc, branchTaken_all legal]; rfl

end Sys2Proof.Machine
end

section
/-! PROOF. The registers and the run state: what each instruction writes when it completes (10_state.md R22, R24, R26, R31),
and that its only other end is a fault. -/

namespace Sys2Proof.Machine

/-! ## The two ends of an instruction -/

/-- Instructions that end the run cleanly (R147): HALT, under either of its two terms. -/
def endsRun : Instr → Bool
  | .halt => true
  | .trap v => v == 0x25
  | _ => false

/-- What an instruction that raises no fault writes: R22's registers, COND and PC as R26 and R24 list them, and `run` only
if it is HALT. -/
structure Completes (i : Instr) (s t : State) : Prop where
  regs : SameRegs (regsWritten s.params.trapLinksR7 i) s t
  cond : writesCond i = false → t.cond = s.cond
  pc : writesPc i = false → t.pc = s.pc
  run : t.run = s.run ∨ (t.run = .halted .clean ∧ endsRun i = true)

/-- An instruction completes, or takes a fault, which gives back the registers it began with (R176). -/
inductive Ends (i : Instr) (s : State) : State → Prop where
  | completes {t : State} (frame : Completes i s t) : Ends i s t
  | faults (u : State) (f : FaultKind) : Ends i s (raiseFault s u f)

/-- A sequence of console operations ends its instruction in one of the two ways. -/
theorem ends_finish {i : Instr} {s : State} {x : Flow} (h : ∀ t, x = .done t → Completes i s t) :
    Ends i s (x.finish s) := by
  cases x with
  | done t => exact .completes (h t rfl)
  | raised u f => exact .faults u f

/-! ## Instructions without a routine

Their memory reads have the frame of a console operation: no register, no run state (`ConsoleFrame`). -/

theorem ConsoleFrame.reg {s t : State} (h : ConsoleFrame s t) (q : Reg) : t.reg q = s.reg q := by
  rw [State.reg, h.regs]; rfl

theorem ConsoleFrame.pc {s t : State} (h : ConsoleFrame s t) : t.pc = s.pc := by rw [State.pc, h.regs]; rfl

theorem ConsoleFrame.cond {s t : State} (h : ConsoleFrame s t) : t.cond = s.cond := by rw [State.cond, h.regs]; rfl

theorem ConsoleFrame.fixed {s t : State} (h : ConsoleFrame s t) : SameFixed s t :=
  ⟨by rw [State.count, h.regs]; rfl, h.params⟩

/-- A flow that is done has the frame of the state it reached. -/
theorem ConsoleFrame.of_done {s t : State} {x : Flow} (h : ConsoleFrame s x.state) (e : x = .done t) :
    ConsoleFrame s t := by subst e; exact h

/-- The operate instructions, LEA and, after their reads, the loads. -/
theorem completes_writeResult {i : Instr} {dr : Reg} {s u : State} (frame : ConsoleFrame s u) (v : Word)
    (listed : regsWritten s.params.trapLinksR7 i = [dr]) (setsCond : writesCond i = true) :
    Completes i s (writeResult dr v u) where
  regs q hq := by
    rw [listed, List.mem_singleton] at hq
    rw [reg_writeResult, if_neg hq, frame.reg]
  cond hc := by rw [setsCond] at hc; cases hc
  pc _ := frame.pc
  run := .inl frame.run

/-- The stores, after STI's read. -/
theorem completes_memWrite {i : Instr} {s u : State} (frame : ConsoleFrame s u) (a v : Word) :
    Completes i s (u.memWrite a v) where
  regs q _ := frame.reg q
  cond _ := frame.cond
  pc _ := frame.pc
  run := .inl frame.run

/-- The control transfers without a link: JMP, and BR when it is taken. -/
theorem completes_setPc {i : Instr} (s : State) (target : Word) (transfers : writesPc i = true) :
    Completes i s (s.setPc target) where
  regs _ _ := rfl
  cond _ := rfl
  pc hp := by rw [transfers] at hp; cases hp
  run := .inl rfl

/-- The control transfers with a link in R7: JSR and JSRR. -/
theorem completes_link {i : Instr} (s : State) (v target : Word) (transfers : writesPc i = true)
    (listed : regsWritten s.params.trapLinksR7 i = [linkReg]) :
    Completes i s ((s.setReg linkReg v).setPc target) where
  regs q hq := by
    rw [listed, List.mem_singleton] at hq
    rw [State.reg_setPc, State.reg_setReg, if_neg hq]
  cond _ := rfl
  pc hp := by rw [transfers] at hp; cases hp
  run := .inl rfl

/-- An instruction that leaves the state after the fetch as it is: BR when it is not taken. -/
theorem Completes.refl (i : Instr) (s : State) : Completes i s s :=
  ⟨fun _ _ => rfl, fun _ => rfl, fun _ => rfl, .inl rfl⟩

/-! ## TRAP's routines -/

/-- Console operations after TRAP's link write no register beyond R141's. -/
theorem ConsoleFrame.trapRegs {s u : State} (h : ConsoleFrame (trapLink s) u) : TrapRegs [] s u :=
  (trapRegs_trapLink s).extend (fun q _ => h.reg q) h.pc h.fixed

/-- A routine that runs to its end: R141's registers and its own, which R22 lists for its vector. -/
theorem TrapRegs.completes {v : Byte} {own : List Reg} {s t : State} (h : TrapRegs own s t)
    (listed : (if v = 0x20 ∨ v = 0x23 then [0] else []) = own)
    (cond : writesCond (.trap v) = false → t.cond = s.cond)
    (run : t.run = s.run ∨ (t.run = .halted .clean ∧ endsRun (.trap v) = true)) : Completes (.trap v) s t where
  regs := by subst listed; exact h.regs
  cond := cond
  pc _ := h.pc
  run := run

/-- A routine of console operations alone: OUT, PUTS and PUTSP. -/
theorem ends_console {v : Byte} {s : State} {x : Flow} (frame : ConsoleFrame (trapLink s) x.state)
    (listed : (if v = 0x20 ∨ v = 0x23 then [0] else []) = ([] : List Reg)) : Ends (.trap v) s (x.finish s) :=
  ends_finish fun t e => by
    have h := frame.of_done e
    exact h.trapRegs.completes listed (fun _ => h.cond.trans (by simp)) (.inl (h.run.trans (by simp)))

theorem ends_trapOut {s t : State} (h : trapOut s = .next t) : Ends (.trap 0x21) s t := by
  cases h; exact ends_console (consoleFrame_consoleOut _ _ _) rfl

/-- The scan of PUTS and PUTSP is made of reads and writes. -/
theorem ends_stringRoutine {v : Byte} (listed : (if v = 0x20 ∨ v = 0x23 then [0] else []) = ([] : List Reg))
    (r : Routine) (chars : Word → List Byte) (s : State) :
    Ends (.trap v) s ((stringRoutine s r chars (trapLink s)).finish s) :=
  ends_console (consoleFrame_scanString _ _ _ _ _ _) listed

/-- A byte the host delivers goes to R0 (R142). -/
theorem ends_trapGetc {s t : State} (h : trapGetc s = .next t) : Ends (.trap 0x20) s t := by
  unfold trapGetc at h
  split at h
  · cases h
  · next answer input _ =>
    cases h
    refine ends_finish fun t e => ?_
    cases answer with
    | none => cases e
    | some b =>
      cases e
      have hr : TrapRegs [0] s (((trapLink s).setInput input).setReg argReg (zext b)) :=
        (trapRegs_trapLink s).extend (fun q hq => by simp_all [argReg]) rfl ⟨rfl, rfl⟩
      exact hr.completes rfl (fun _ => cond_trapLink s) (.inl (run_trapLink s))

/-- IN after its prompt: a byte the host delivers is echoed and goes to R0 (R145). -/
theorem inRoutine_done {start s t : State} {answer : Option Byte} (h : inRoutine start answer s = .done t) :
    ∃ b u, ConsoleFrame s u ∧ t = writeResult argReg (zext b) u := by
  cases answer with
  | none => cases h
  | some b =>
    have frame := consoleFrame_consoleOut (ioError start .inChar .write) b s
    rw [inRoutine] at h
    cases e : consoleOut (ioError start .inChar .write) b s with
    | done u => rw [e] at h; cases h; exact ⟨b, u, frame.of_done e, rfl⟩
    | raised u f => rw [e] at h; cases h

theorem ends_trapIn {s t : State} (h : trapIn s = .next t) : Ends (.trap 0x23) s t := by
  unfold trapIn at h
  split at h
  · split at h
    · cases h; exact .faults _ _
    · cases h
  · next answer input _ =>
    cases h
    refine ends_finish fun t e => ?_
    cases p : inPromptRoutine s (trapLink s) with
    | raised u f => rw [p] at e; cases e
    | done u =>
      rw [p] at e
      obtain ⟨b, w, echo, rfl⟩ := inRoutine_done e
      have prompt := (consoleFrame_consoleOutStr _ _ _).of_done p
      have frame : ConsoleFrame (trapLink s) w := (prompt.trans (consoleFrame_setInput u input)).trans echo
      have hr : TrapRegs [0] s (writeResult argReg (zext b) w) :=
        frame.trapRegs.extend (fun q hq => by simp_all [argReg]) rfl ⟨rfl, rfl⟩
      exact hr.completes rfl (fun hc => by cases hc) (.inl (frame.run.trans (run_trapLink s)))

/-- HALT's announcement, then the clean exit (R147). -/
theorem ends_trapHalt {s t : State} (h : trapHalt s = .next t) : Ends (.trap 0x25) s t := by
  cases h
  refine ends_finish fun t e => ?_
  rw [haltRoutine] at e
  cases p : consoleOutStr (ioError s .halt .write) (trapLink s).params.haltAnnounce (trapLink s) with
  | raised u f => rw [p] at e; cases e
  | done u =>
    rw [p] at e; cases e
    have frame := (consoleFrame_consoleOutStr _ _ _).of_done p
    have hr : TrapRegs [] s u.haltClean := frame.trapRegs.extend (fun _ _ => rfl) rfl ⟨rfl, rfl⟩
    exact hr.completes rfl (fun _ => frame.cond.trans (cond_trapLink s)) (.inr ⟨rfl, rfl⟩)

/-- TRAP, by its vector (R140). -/
theorem ends_execTrap {v : Byte} {s t : State} (h : execTrap v s = .next t) : Ends (.trap v) s t := by
  unfold execTrap at h
  split at h
  · next e => subst e; exact ends_trapGetc h
  split at h
  · next e => subst e; exact ends_trapOut h
  split at h
  · next e => subst e; cases h; exact ends_stringRoutine rfl _ _ _
  split at h
  · next e => subst e; exact ends_trapIn h
  split at h
  · next e => subst e; cases h; exact ends_stringRoutine rfl _ _ _
  split at h
  · next e => subst e; exact ends_trapHalt h
  · cases h; exact .faults _ _

/-! ## The service rows are TRAP's by another name (R69, log 9) -/

/-- A service row is listed for what TRAP with its vector is listed for. -/
theorem lists_decodeTrap (links : Bool) (v : Byte) :
    regsWritten links (decodeTrap v) = regsWritten links (.trap v) ∧ writesCond (decodeTrap v) = writesCond (.trap v) ∧
    writesPc (decodeTrap v) = writesPc (.trap v) ∧ endsRun (decodeTrap v) = endsRun (.trap v) := by
  unfold decodeTrap
  repeat (split; · next e => subst e; cases links <;> decide)
  exact ⟨rfl, rfl, rfl, rfl⟩

/-- So what TRAP does is what the decoded row does. -/
theorem Ends.decodedRow {v : Byte} {s t : State} (h : Ends (.trap v) s t) : Ends (decodeTrap v) s t := by
  obtain ⟨regs, cond, pc, run⟩ := lists_decodeTrap s.params.trapLinksR7 v
  cases h with
  | completes frame =>
    exact .completes ⟨by rw [regs]; exact frame.regs, by rw [cond]; exact frame.cond, by rw [pc]; exact frame.pc,
      by rw [run]; exact frame.run⟩
  | faults u f => exact .faults u f

/-! ## Every instruction -/

/-- Every instruction that has a next state completes within its lists or takes a fault. -/
theorem exec_ends {i : Instr} {s t : State} (h : exec i s = .next t) : Ends i s t := by
  cases i with
  | add | addi | and | andi | not | lea =>
    cases h; exact .completes (completes_writeResult (.refl s) _ rfl rfl)
  | br =>
    cases h
    refine .completes ?_
    split
    · exact completes_setPc _ _ rfl
    · exact .refl _ s
  | jmp => cases h; exact .completes (completes_setPc _ _ rfl)
  | jsr | jsrr => cases h; exact .completes (completes_link _ _ _ rfl rfl)
  | ld | ldr => cases h; exact .completes (completes_writeResult (consoleFrame_afterRead _ _) _ rfl rfl)
  | ldi =>
    cases h
    exact .completes
      (completes_writeResult ((consoleFrame_afterRead _ _).trans (consoleFrame_afterRead _ _)) _ rfl rfl)
  | st | str => cases h; exact .completes (completes_memWrite (.refl s) _ _)
  | sti => cases h; exact .completes (completes_memWrite (consoleFrame_afterRead _ _) _ _)
  | trap v => exact ends_execTrap h
  | getc => exact (ends_trapGetc h).decodedRow
  | out => exact (ends_trapOut h).decodedRow
  | puts => exact (ends_execTrap (v := 0x22) h).decodedRow
  | inChar => exact (ends_trapIn h).decodedRow
  | putsp => exact (ends_execTrap (v := 0x24) h).decodedRow
  | halt => exact (ends_trapHalt h).decodedRow
  | rti | res => cases h; exact .faults _ _

/-- Settles O53: a completed instruction writes COND only where R26 lists it, and a fault gives COND back. -/
theorem onlyListedInstructionsWriteCond : Obligations.OnlyListedInstructionsWriteCond := by
  intro i s t unlisted h
  cases exec_ends h with
  | completes frame => exact frame.cond unlisted
  | faults u f => exact cond_raiseFault s u f

/-- Settles O54: a completed instruction writes the registers R22 lists, and a fault gives all of them back. -/
theorem onlyListedRegistersAreWritten : Obligations.OnlyListedRegistersAreWritten := by
  intro i s t h
  cases exec_ends h with
  | completes frame => exact frame.regs
  | faults u f => exact fun q _ => reg_raiseFault s u f q

/-- Settles O55: only a fault or a control transfer moves PC from where the fetch left it. -/
theorem onlyControlTransfersWritePc : Obligations.OnlyControlTransfersWritePc := by
  intro i s t noTransfer h noFault
  cases exec_ends h with
  | completes frame => exact frame.pc noTransfer
  | faults u f => exact absurd (run_raiseFault s u f) (noFault f)

end Sys2Proof.Machine
end

section
/-! PROOF. How a run ends (10_state.md R31, 44_trap.md R147): the one clean exit is HALT's. -/

namespace Sys2Proof

/-- The decoder turns every service vector into its row (R69). -/
theorem decodeTrap_wellFormed (v : Byte) : (decodeTrap v).wellFormed = true := by
  unfold decodeTrap
  repeat (split; · rfl)
  simp only [Instr.wellFormed, isServiceVector, Bool.not_eq_true', Bool.and_eq_false_iff, decide_eq_false_iff_not]
  bv_omega

/-- The decoder gives well-formed terms only (R70, log 9). -/
theorem decode_wellFormed (w : Word) : (decode w).wellFormed = true := by
  unfold decode
  split
  case h_16 => exact decodeTrap_wellFormed _
  case h_2 | h_5 | h_6 => split <;> rfl
  all_goals rfl

end Sys2Proof

namespace Sys2Proof.Machine

/-- Of the two terms for HALT only the row is well formed. -/
theorem eq_halt_of_endsRun {i : Instr} (h : endsRun i = true) (wf : i.wellFormed = true) : i = .halt := by
  cases i with
  | halt => rfl
  | trap v =>
    have halts : v = 0x25 := by simpa [endsRun] using h
    subst halts; cases wf
  | _ => cases h

/-- Settles O58: a running engine's completed step keeps `run`, or ends it cleanly by the decoded HALT; any other end is a
fault. -/
theorem onlyHaltEndsTheRunCleanly : Obligations.OnlyHaltEndsTheRunCleanly := by
  intro s t running h
  cases exec_ends (exec_of_step h).2 with
  | completes frame =>
    rcases frame.run with same | ⟨clean, ends⟩
    · rw [run_fetched, running] at same
      rw [same]; exact ⟨nofun, nofun⟩
    · rw [clean]; exact ⟨fun _ => eq_halt_of_endsRun ends (decode_wellFormed _), nofun⟩
  | faults u f => rw [run_raiseFault]; exact ⟨nofun, nofun⟩

end Sys2Proof.Machine
end

section
/-! PROOF. Memory as the list of its words (20_memory.md R40, R42; log 1). -/

namespace Sys2Proof.Machine

/-- A write has the shape of a store: its word and no other, and no part of the state but memory (R42). -/
theorem storesWord_memWrite {s : State} (wf : s.mem.wf = true) (a v : Word) : StoresWord a v s (s.memWrite a v) where
  mem b := Memory.read_write wf a b v
  regs _ _ := rfl
  cond := rfl
  pc := rfl
  rest := ⟨rfl, rfl, rfl, rfl, rfl⟩

/-- Settles O25: a write has a store's shape, and keeps the form of memory. -/
theorem writeChangesItsWordOnly : Obligations.WriteChangesItsWordOnly :=
  fun _ a v wf => ⟨storesWord_memWrite wf a v, Memory.write_wf wf a v⟩

/-- Canonical memories that read alike at every word address list alike at every key: a key beyond the address space is
listed by neither. -/
theorem Memory.lookup_eq_of_read_eq {m m' : Memory} (wf : m.wf = true) (wf' : m'.wf = true)
    (alike : ∀ a, m.read a = m'.read a) (k : Nat) : m.lookup k = m'.lookup k := by
  rcases Nat.lt_or_ge k 0x10000 with inside | beyond
  · have h := alike (BitVec.ofNat 16 k)
    rwa [Memory.read, Memory.read, BitVec.toNat_ofNat, Nat.mod_eq_of_lt inside] at h
  · rw [Memory.lookup_above wf beyond, Memory.lookup_above wf' beyond]

/-- Settles O26: reading alike is listing alike, and a canonical list is determined by what it lists. -/
theorem canonicalMemoriesThatReadAlikeAreEqual : Obligations.CanonicalMemoriesThatReadAlikeAreEqual :=
  fun _ _ wf wf' alike => Memory.ext_lookup wf wf' (Memory.lookup_eq_of_read_eq wf wf' alike)

end Sys2Proof.Machine
end

section
/-! PROOF. What the host answers to polls and blocking reads (60_exceptions.md R183, I8, I9; log 5). -/

namespace Sys2Proof.Machine

/-- With a byte queued the poll's answer is the host's own draw. -/
theorem ConsoleInput.avail_of_queued {c : ConsoleInput} {b : Byte} {rest : List Byte} (queued : c.pending = b :: rest) :
    c.avail = c.polls.next Config.freePoll := by
  simp [ConsoleInput.avail, ConsoleInput.canDeliver, queued]

/-- R183: a poll answers true "only if `read_byte` would not block". -/
theorem ConsoleInput.avail_of_empty {c : ConsoleInput} (empty : c.pending = []) (closed : c.tail ≠ .free) :
    c.avail = false := by
  simp [ConsoleInput.avail, ConsoleInput.canDeliver, empty, closed]

/-- The byte taken after a poll is the oldest queued one. -/
theorem ConsoleInput.take_polled_of_queued {c : ConsoleInput} {b : Byte} {rest : List Byte}
    (queued : c.pending = b :: rest) : c.polled.take = (b, { c.polled with pending := rest }) := by
  simp [ConsoleInput.take, ConsoleInput.polled, queued]

/-- A blocking read takes the oldest queued byte. -/
theorem ConsoleInput.read_of_queued {c : ConsoleInput} {b : Byte} {rest : List Byte} (queued : c.pending = b :: rest) :
    c.read = some (some b, { c with pending := rest }) := by
  simp [ConsoleInput.read, queued]

theorem ConsoleInput.read_of_ended {c : ConsoleInput} (empty : c.pending = []) (ended : c.tail = .ended) :
    c.read = some (none, c) := by
  simp [ConsoleInput.read, empty, ended]

/-- I8: a blocking read is never answered exactly if nothing is queued and the host is silent. -/
theorem ConsoleInput.read_eq_none_iff (c : ConsoleInput) : c.read = none ↔ c.pending = [] ∧ c.tail = .silent := by
  obtain ⟨pending, tail, polls, n⟩ := c
  cases pending with
  | cons b rest => simp [ConsoleInput.read]
  | nil => cases tail <;> simp [ConsoleInput.read]

/-- Settles O29, one lemma for each kind of answer. -/
theorem pollAndReadAnswers : Obligations.PollAndReadAnswers := by
  intro c
  refine ⟨c.avail_of_empty, fun b rest queued => ?_, c.read_of_ended, c.read_eq_none_iff⟩
  rw [ConsoleInput.take_polled_of_queued queued]
  exact ⟨c.avail_of_queued queued, rfl, rfl, _, c.read_of_queued queued, rfl, rfl⟩

end Sys2Proof.Machine
end

section
/-! PROOF. The keyboard registers (20_memory.md R45, R46). -/

namespace Sys2Proof.Machine

/-- A read of KBSR with a key ready. -/
theorem State.afterRead_kbsr_ready {s : State} (ready : s.input.avail = true) :
    s.afterRead s.params.kbsrAddr = (s.setInput s.input.polled.take.2).setMem
      ((s.mem.write s.params.kbsrAddr kbsrReady).write s.params.kbdrAddr (zext s.input.polled.take.1)) :=
  s.afterRead_kbsr.trans (if_pos ready)

/-- A read of KBSR without a key. -/
theorem State.afterRead_kbsr_idle {s : State} (idle : s.input.avail = false) :
    s.afterRead s.params.kbsrAddr = (s.setInput s.input.polled).setMem (s.mem.write s.params.kbsrAddr 0x0000) :=
  s.afterRead_kbsr.trans (if_neg (by simp [idle]))

/-- Settles O27: the refresh writes KBSR first and KBDR after it, so with distinct addresses each reads its own word; the
byte's order is the queue's. -/
theorem keyboardStatusReadRefreshes : Obligations.KeyboardStatusReadRefreshes := by
  intro s wf distinct t
  have frame : ConsoleFrame s t := consoleFrame_afterRead s _
  refine ⟨fun ready => ?_, fun idle => ?_, fun b rest queued => ?_, fun empty ended => ?_,
    frame.regs, frame.run, s.output_afterRead _, frame.params⟩
  · have refreshed : t = _ := State.afterRead_kbsr_ready ready
    have status : t.mem.read s.params.kbsrAddr = 0x8000 := by
      rw [refreshed, State.mem_setMem, Memory.read_write_ne _ _ distinct, Memory.read_write_self wf]; rfl
    refine ⟨status, status, ?_, by rw [refreshed]; rfl, frame.mem⟩
    rw [refreshed, State.mem_setMem, Memory.read_write_self (Memory.write_wf wf _ _)]; rfl
  · have refreshed : t = _ := State.afterRead_kbsr_idle idle
    have status : t.mem.read s.params.kbsrAddr = 0x0000 := by
      rw [refreshed, State.mem_setMem, Memory.read_write_self wf]
    refine ⟨status, status, by rw [refreshed]; rfl, fun a other => ?_⟩
    rw [refreshed, State.mem_setMem, Memory.read_write_ne _ _ other]
  · rw [ConsoleInput.take_polled_of_queued queued]; exact ⟨rfl, rfl⟩
  · exact ConsoleInput.avail_of_empty empty (by simp [ended])

/-- Settles O28: only a read at KBSR refreshes, and KBDR is another address. -/
theorem keyboardDataReadIsPlain : Obligations.KeyboardDataReadIsPlain :=
  fun _ distinct => ⟨State.memRead_plain distinct.symm, State.afterRead_plain distinct.symm⟩

end Sys2Proof.Machine
end

section
/-! PROOF. The fetch (20_memory.md R47, R58; 30_encoding.md R80): at KBSR it refreshes; elsewhere it reads what is stored. -/

namespace Sys2Proof.Machine

/-! ## What the fetch leaves -/

/-- R80: a running engine executes what the fetched word decodes to. -/
theorem step_of_running {s : State} (running : s.run = .running) : step s = exec (decode s.fetchWord) s.fetched := by
  rw [step, running]

@[simp] theorem pc_fetched (s : State) : s.fetched.pc = s.pc + 1 := rfl

@[simp] theorem instrAddr_fetched (s : State) : s.fetched.instrAddr = s.pc := by simp [State.instrAddr]

/-- The fetch writes no register but PC. -/
@[simp] theorem reg_fetched (s : State) (q : Reg) : s.fetched.reg q = s.reg q := s.reg_afterRead s.pc q

@[simp] theorem cond_fetched (s : State) : s.fetched.cond = s.cond := s.cond_afterRead s.pc

@[simp] theorem output_fetched (s : State) : s.fetched.output = s.output := s.output_afterRead s.pc

theorem sameFixed_fetched (s : State) : SameFixed s s.fetched := (preserves_fetched s).fixed

theorem fetchWord_plain {s : State} (plain : s.pc ≠ s.params.kbsrAddr) : s.fetchWord = s.mem.read s.pc :=
  State.memRead_plain plain

theorem fetched_plain {s : State} (plain : s.pc ≠ s.params.kbsrAddr) : s.fetched = s.setPc (s.pc + 1) := by
  rw [State.fetched, State.afterRead_plain plain]

/-- Away from KBSR a step executes what the word stored at PC decodes to. -/
theorem step_plain {s : State} (running : s.run = .running) (plain : s.pc ≠ s.params.kbsrAddr) :
    step s = exec (decode (s.mem.read s.pc)) (s.setPc (s.pc + 1)) := by
  rw [step_of_running running, fetchWord_plain plain, fetched_plain plain]

/-! ## A fetch from KBSR -/

/-- The word 0x8000 is an RTI, which raises at its own address (R160). -/
theorem step_of_fetchWord_ready {s : State} (running : s.run = .running) (word : s.fetchWord = 0x8000) :
    step s = .next (raiseFault s.fetched s.fetched (.invalidOpcode s.pc 0x8000)) := by
  have rti : decode 0x8000 = .rti 0 := by decide
  rw [step_of_running running, word, rti, ← instrAddr_fetched s]
  rfl

/-- The word 0x0000 is a BR with mask 000, which never branches (R68). -/
theorem step_of_fetchWord_zero {s : State} (running : s.run = .running) (word : s.fetchWord = 0x0000) :
    step s = .next s.fetched := by
  have br : decode 0x0000 = .br 0 0 := by decide
  rw [step_of_running running, word, br]
  have executes : exec (.br 0 0) s.fetched = execBr 0 0 s.fetched := rfl
  rw [executes, execBr, branchTaken_none]
  rfl

/-- Settles O13: the refresh leaves the word that is then executed; with a key ready it is an RTI's, without one a BR's that
never branches. -/
theorem fetchFromKeyboardStatus : Obligations.FetchFromKeyboardStatus := by
  intro s wf distinct running atStatus
  obtain ⟨ready, idle, -⟩ := keyboardStatusReadRefreshes s wf distinct
  rw [← atStatus] at ready idle ⊢
  refine ⟨fun key => ?_, fun noKey => ?_⟩
  · obtain ⟨word, status, data, input, others⟩ := ready key
    exact ⟨_, step_of_fetchWord_ready running word, rfl, instrAddr_fetched s, fun q _ => reg_fetched s q,
      cond_fetched s, status, data, others, input, output_fetched s, sameFixed_fetched s⟩
  · obtain ⟨word, status, input, others⟩ := idle noKey
    exact ⟨_, step_of_fetchWord_zero running word, (run_fetched s).trans running, rfl, fun q _ => reg_fetched s q,
      cond_fetched s, status, others, input, output_fetched s, sameFixed_fetched s⟩

/-! ## A word stored at the next address -/

/-- ST with offset zero stores at the next word (R130). -/
theorem exec_st_zero (sr : Reg) (s : State) : exec (.st sr 0) s = .next (s.memWrite s.pc (s.reg sr)) := by
  have executes : exec (.st sr 0) s = execSt sr 0 s := rfl
  have address : pcRelative (0 : BitVec 9) s = s.pc := by simp [pcRelative, sext]
  rw [executes, execSt, address]

/-- Settles O37: the second fetch is plain, so it reads the word the store has just put there. -/
theorem storedWordIsFetchedNext : Obligations.StoredWordIsFetchedNext := by
  intro s sr wf running plain plainNext stores
  let t := (s.setPc (s.pc + 1)).memWrite (s.pc + 1) (s.reg sr)
  have first : step s = .next t := by rw [step_plain running plain, stores, exec_st_zero]; rfl
  have stored : t.mem.read t.pc = s.reg sr := Memory.read_write_self wf (s.pc + 1) (s.reg sr)
  have second : step t = exec (decode (t.mem.read t.pc)) (t.setPc (t.pc + 1)) := step_plain running plainNext
  have pcAfter : t.pc + 1 = s.pc + 2 := BitVec.add_assoc s.pc 1 1
  exact ⟨t, first, by rw [second, stored, pcAfter]⟩

end Sys2Proof.Machine
end

section
/-! PROOF. A running engine always has a next state but where a blocking read is never answered (R41, R114, R170, R183;
I8). -/

namespace Sys2Proof.Machine

/-- The two ways an instruction can go on: it has a next state, or it is GETC or IN and waits for ever for a byte. -/
def NextOrBlocked (i : Instr) (s : State) : Prop :=
  (∃ t, exec i s = .next t) ∨
  (exec i s = .fault .inputBlocked ∧ s.InputSilent ∧ (i = .getc ∨ i = .inChar))

theorem nextOrBlocked_getc (s : State) : NextOrBlocked .getc s := by
  have executes : exec .getc s = trapGetc s := rfl
  unfold NextOrBlocked
  rw [executes, trapGetc]
  cases answer : s.input.read with
  | none => exact .inr ⟨rfl, s.input.read_eq_none_iff.mp answer, .inl rfl⟩
  | some _ => exact .inl ⟨_, rfl⟩

/-- IN under a silent host still has a next state if its prompt is refused. -/
theorem nextOrBlocked_in (s : State) : NextOrBlocked .inChar s := by
  have executes : exec .inChar s = trapIn s := rfl
  unfold NextOrBlocked
  rw [executes, trapIn]
  cases answer : s.input.read with
  | some _ => exact .inl ⟨_, rfl⟩
  | none =>
    cases inPromptRoutine s (trapLink s) with
    | raised _ _ => exact .inl ⟨_, rfl⟩
    | done _ => exact .inr ⟨rfl, s.input.read_eq_none_iff.mp answer, .inr rfl⟩

/-- A TRAP term that is well formed selects no routine (R69), so it raises `UnimplementedTrap`. -/
theorem execTrap_of_wellFormed {v : Byte} (wf : (Instr.trap v).wellFormed = true) (s : State) :
    execTrap v s = trapUnimplemented v s := by
  unfold execTrap
  repeat (split; · next service => subst service; cases wf)
  rfl

/-- Beside GETC and IN every instruction has a next state, whatever its operands and the data it meets. -/
theorem nextOrBlocked_of_wellFormed {i : Instr} (wf : i.wellFormed = true) (s : State) : NextOrBlocked i s := by
  cases i with
  | getc => exact nextOrBlocked_getc s
  | inChar => exact nextOrBlocked_in s
  | trap v => exact .inl ⟨_, execTrap_of_wellFormed wf s⟩
  | _ => exact .inl ⟨_, rfl⟩

/-- Settles O15: the decoder gives well-formed terms only, so its TRAP terms are none of the reading routines. -/
theorem runningEngineStepsUnlessInputIsSilent : Obligations.RunningEngineStepsUnlessInputIsSilent := by
  intro s running
  rw [step_of_running running]
  exact nextOrBlocked_of_wellFormed (decode_wellFormed _) _

end Sys2Proof.Machine
end

section
/-! PROOF. Decoding and encoding are inverse but for the ignored bits (30_encoding.md R61-R70). -/

namespace Sys2Proof

open Machine (ignoredBits)

/-! ## Decoding an instruction's own word -/

/-- Settles O1, one law for each constructor. -/
theorem decodeOfEncodeIsIdentity : Obligations.DecodeOfEncodeIsIdentity := by
  intro i
  cases i with
  | add dr sr1 sr2 => exact Laws.RoundTrip.add dr sr1 sr2
  | addi dr sr1 imm5 => exact Laws.RoundTrip.addi dr sr1 imm5
  | and dr sr1 sr2 => exact Laws.RoundTrip.and dr sr1 sr2
  | andi dr sr1 imm5 => exact Laws.RoundTrip.andi dr sr1 imm5
  | not dr sr => exact Laws.RoundTrip.not dr sr
  | br nzp off9 => exact Laws.RoundTrip.br nzp off9
  | jmp base => exact Laws.RoundTrip.jmp base
  | jsr off11 => exact Laws.RoundTrip.jsr off11
  | jsrr base => exact Laws.RoundTrip.jsrr base
  | ld dr off9 => exact Laws.RoundTrip.ld dr off9
  | ldi dr off9 => exact Laws.RoundTrip.ldi dr off9
  | ldr dr base off6 => exact Laws.RoundTrip.ldr dr base off6
  | lea dr off9 => exact Laws.RoundTrip.lea dr off9
  | st sr off9 => exact Laws.RoundTrip.st sr off9
  | sti sr off9 => exact Laws.RoundTrip.sti sr off9
  | str sr base off6 => exact Laws.RoundTrip.str sr base off6
  | trap v => exact Laws.RoundTrip.trap v
  | getc => exact Laws.RoundTrip.getc
  | out => exact Laws.RoundTrip.out
  | puts => exact Laws.RoundTrip.puts
  | inChar => exact Laws.RoundTrip.inChar
  | putsp => exact Laws.RoundTrip.putsp
  | halt => exact Laws.RoundTrip.halt
  | rti low => exact Laws.RoundTrip.rti low
  | res low => exact Laws.RoundTrip.res low

/-- Settles O4: the fourteen words are closed terms. -/
theorem specWordsDecode : Obligations.SpecWordsDecode := by
  unfold Obligations.SpecWordsDecode
  decide

/-! ## The row of a word -/

/-- The rows of R63 under which a word can fall: what selects the row (R66), the instruction it stands for, and the bits that
carry no field (R67). The service routines are in the row of TRAP. -/
inductive Row (w : Word) : Instr → Word → Prop where
  | br (op : field w 12 4 = 0x0#4) : Row w (.br (field w 9 3) (field w 0 9)) 0
  | add (op : field w 12 4 = 0x1#4) (mode : field w 5 1 = 0#1) :
      Row w (.add (regField w 9) (regField w 6) (regField w 0)) 0x0018
  | addi (op : field w 12 4 = 0x1#4) (mode : field w 5 1 = 1#1) :
      Row w (.addi (regField w 9) (regField w 6) (field w 0 5)) 0
  | ld (op : field w 12 4 = 0x2#4) : Row w (.ld (regField w 9) (field w 0 9)) 0
  | st (op : field w 12 4 = 0x3#4) : Row w (.st (regField w 9) (field w 0 9)) 0
  | jsrr (op : field w 12 4 = 0x4#4) (mode : field w 11 1 = 0#1) : Row w (.jsrr (regField w 6)) 0x063F
  | jsr (op : field w 12 4 = 0x4#4) (mode : field w 11 1 = 1#1) : Row w (.jsr (field w 0 11)) 0
  | and (op : field w 12 4 = 0x5#4) (mode : field w 5 1 = 0#1) :
      Row w (.and (regField w 9) (regField w 6) (regField w 0)) 0x0018
  | andi (op : field w 12 4 = 0x5#4) (mode : field w 5 1 = 1#1) :
      Row w (.andi (regField w 9) (regField w 6) (field w 0 5)) 0
  | ldr (op : field w 12 4 = 0x6#4) : Row w (.ldr (regField w 9) (regField w 6) (field w 0 6)) 0
  | str (op : field w 12 4 = 0x7#4) : Row w (.str (regField w 9) (regField w 6) (field w 0 6)) 0
  | rti (op : field w 12 4 = 0x8#4) : Row w (.rti (field w 0 12)) 0
  | not (op : field w 12 4 = 0x9#4) : Row w (.not (regField w 9) (regField w 6)) 0x003F
  | ldi (op : field w 12 4 = 0xA#4) : Row w (.ldi (regField w 9) (field w 0 9)) 0
  | sti (op : field w 12 4 = 0xB#4) : Row w (.sti (regField w 9) (field w 0 9)) 0
  | jmp (op : field w 12 4 = 0xC#4) : Row w (.jmp (regField w 6)) 0x0E3F
  | res (op : field w 12 4 = 0xD#4) : Row w (.res (field w 0 12)) 0
  | lea (op : field w 12 4 = 0xE#4) : Row w (.lea (regField w 9) (field w 0 9)) 0
  | trap (op : field w 12 4 = 0xF#4) : Row w (decodeTrap (field w 0 8)) 0x0F00

theorem opcode_cases (op : BitVec 4) :
    op = 0x0#4 ∨ op = 0x1#4 ∨ op = 0x2#4 ∨ op = 0x3#4 ∨ op = 0x4#4 ∨ op = 0x5#4 ∨ op = 0x6#4 ∨ op = 0x7#4 ∨
    op = 0x8#4 ∨ op = 0x9#4 ∨ op = 0xA#4 ∨ op = 0xB#4 ∨ op = 0xC#4 ∨ op = 0xD#4 ∨ op = 0xE#4 ∨ op = 0xF#4 := by
  revert op; decide

/-- R67's list by the fields the decoder selects by: the opcode, the operate mode and the subroutine mode. -/
def ignoredBy (op : BitVec 4) (mode5 mode11 : BitVec 1) : Word :=
  if op = 0x1 ∨ op = 0x5 then (if mode5 = 0 then 0x0018 else 0x0000)
  else if op = 0x9 then 0x003F
  else if op = 0xC then 0x0E3F
  else if op = 0x4 then (if mode11 = 0 then 0x063F else 0x0000)
  else if op = 0xF then 0x0F00
  else 0x0000

theorem ignoredBits_eq (w : Word) : ignoredBits w = ignoredBy (field w 12 4) (field w 5 1) (field w 11 1) := rfl

/-- Every word is in a row, and R67's list for the word is the row's. -/
theorem exists_row (w : Word) : ∃ i, Row w i (ignoredBits w) := by
  rw [ignoredBits_eq]
  rcases opcode_cases (field w 12 4) with
    op | op | op | op | op | op | op | op | op | op | op | op | op | op | op | op <;> rw [op]
  · exact ⟨_, .br op⟩
  · rcases (field w 5 1).eq_zero_or_eq_one with mode | mode <;> rw [mode]
    · exact ⟨_, .add op mode⟩
    · exact ⟨_, .addi op mode⟩
  · exact ⟨_, .ld op⟩
  · exact ⟨_, .st op⟩
  · rcases (field w 11 1).eq_zero_or_eq_one with mode | mode <;> rw [mode]
    · exact ⟨_, .jsrr op mode⟩
    · exact ⟨_, .jsr op mode⟩
  · rcases (field w 5 1).eq_zero_or_eq_one with mode | mode <;> rw [mode]
    · exact ⟨_, .and op mode⟩
    · exact ⟨_, .andi op mode⟩
  · exact ⟨_, .ldr op⟩
  · exact ⟨_, .str op⟩
  · exact ⟨_, .rti op⟩
  · exact ⟨_, .not op⟩
  · exact ⟨_, .ldi op⟩
  · exact ⟨_, .sti op⟩
  · exact ⟨_, .jmp op⟩
  · exact ⟨_, .res op⟩
  · exact ⟨_, .lea op⟩
  · exact ⟨_, .trap op⟩

/-- The decoder reads a word by its row. -/
theorem Row.decode_eq {w ignored : Word} {i : Instr} (row : Row w i ignored) : decode w = i := by
  cases row with
  | br op => exact decode_op0 op
  | add op mode => exact (decode_op1 op).trans (if_neg (by rw [mode]; decide))
  | addi op mode => exact (decode_op1 op).trans (if_pos mode)
  | ld op => exact decode_op2 op
  | st op => exact decode_op3 op
  | jsrr op mode => exact (decode_op4 op).trans (if_neg (by rw [mode]; decide))
  | jsr op mode => exact (decode_op4 op).trans (if_pos mode)
  | and op mode => exact (decode_op5 op).trans (if_neg (by rw [mode]; decide))
  | andi op mode => exact (decode_op5 op).trans (if_pos mode)
  | ldr op => exact decode_op6 op
  | str op => exact decode_op7 op
  | rti op => exact decode_op8 op
  | not op => exact decode_op9 op
  | ldi op => exact decode_opA op
  | sti op => exact decode_opB op
  | jmp op => exact decode_opC op
  | res op => exact decode_opD op
  | lea op => exact decode_opE op
  | trap op => exact decode_opF op

theorem row_decode (w : Word) : Row w (decode w) (ignoredBits w) := by
  obtain ⟨i, row⟩ := exists_row w
  rwa [row.decode_eq]

/-! ## Encoding a decoded word -/

/-- Neighbouring fields of a word form one field. -/
theorem field_append_field (w : Word) (lo n m : Nat) : field w (lo + n) m ++ field w lo n = field w lo (m + n) :=
  BitVec.extractLsb'_append_extractLsb'_eq_extractLsb' rfl

theorem field_all (w : Word) : field w 0 16 = w := BitVec.extractLsb'_eq_self

/-- The layouts of R63 in which every bit carries a field: their fields make up the word. -/
theorem word_eq_opReg9 {w : Word} {op : BitVec 4} (h : field w 12 4 = op) : op ++ field w 9 3 ++ field w 0 9 = w := by
  rw [← h, field_append_field w 9 3 4, field_append_field w 0 9 7, field_all]

theorem word_eq_opRegReg6 {w : Word} {op : BitVec 4} (h : field w 12 4 = op) :
    op ++ field w 9 3 ++ field w 6 3 ++ field w 0 6 = w := by
  rw [← h, field_append_field w 9 3 4, field_append_field w 6 3 7, field_append_field w 0 6 10, field_all]

theorem word_eq_opRegRegMode5 {w : Word} {op : BitVec 4} {mode : BitVec 1} (h : field w 12 4 = op)
    (hm : field w 5 1 = mode) : op ++ field w 9 3 ++ field w 6 3 ++ mode ++ field w 0 5 = w := by
  rw [← h, ← hm, field_append_field w 9 3 4, field_append_field w 6 3 7, field_append_field w 5 1 10,
    field_append_field w 0 5 11, field_all]

theorem word_eq_opMode11 {w : Word} {op : BitVec 4} {mode : BitVec 1} (h : field w 12 4 = op)
    (hm : field w 11 1 = mode) : op ++ mode ++ field w 0 11 = w := by
  rw [← h, ← hm, field_append_field w 11 1 4, field_append_field w 0 11 5, field_all]

theorem word_eq_op12 {w : Word} {op : BitVec 4} (h : field w 12 4 = op) : op ++ field w 0 12 = w := by
  rw [← h, field_append_field w 0 12 4, field_all]

/-- Words that agree on fields agree on every bit the fields `(lo, len)` cover. -/
theorem and_eq_and_of_fields {x y mask : Word} (fields : List (Nat × Nat))
    (covered : ∀ i < 16, mask.getLsbD i = true → ∃ f ∈ fields, f.1 ≤ i ∧ i < f.1 + f.2)
    (same : ∀ f ∈ fields, field x f.1 f.2 = field y f.1 f.2) : x &&& mask = y &&& mask := by
  apply BitVec.eq_of_getLsbD_eq
  intro i hi
  rw [BitVec.getLsbD_and, BitVec.getLsbD_and]
  cases examined : mask.getLsbD i with
  | false => simp
  | true =>
    obtain ⟨f, hf, lower, upper⟩ := covered i hi examined
    have bit := congrArg (·.getLsbD (i - f.1)) (same f hf)
    have inside : i - f.1 < f.2 := by omega
    simpa [field, inside, Nat.add_sub_cancel' lower] using bit

/-- Every vector's row writes the vector in bits 7:0. -/
theorem encode_decodeTrap (v : Byte) : encode (decodeTrap v) = 0xF#4 ++ 0#4 ++ v := by
  unfold decodeTrap
  repeat (split; · next service => subst service; rfl)
  rfl

/-! The layouts of R63 with bits that carry no field, whatever stands on those bits. -/

theorem examined_opRegRegMode23 {w : Word} {op : BitVec 4} {mode : BitVec 1} (h : field w 12 4 = op)
    (hm : field w 5 1 = mode) (z : BitVec 2) :
    (op ++ field w 9 3 ++ field w 6 3 ++ mode ++ z ++ field w 0 3) &&& ~~~ 0x0018 = w &&& ~~~ 0x0018 := by
  obtain ⟨o, a, b, m, c⟩ := fields_opRegRegMode23 op (field w 9 3) (field w 6 3) mode z (field w 0 3)
  exact and_eq_and_of_fields [(12, 4), (9, 3), (6, 3), (5, 1), (0, 3)] (by decide) (by simp [o, a, b, m, c, h, hm])

theorem examined_opRegReg {w : Word} {op : BitVec 4} (h : field w 12 4 = op) (y : BitVec 6) :
    (op ++ field w 9 3 ++ field w 6 3 ++ y) &&& ~~~ 0x003F = w &&& ~~~ 0x003F := by
  obtain ⟨o, a, b, -⟩ := fields_opRegReg6 op (field w 9 3) (field w 6 3) y
  exact and_eq_and_of_fields [(12, 4), (9, 3), (6, 3)] (by decide) (by simp [o, a, b, h])

theorem examined_opReg {w : Word} {op : BitVec 4} (h : field w 12 4 = op) (z : BitVec 3) (y : BitVec 6) :
    (op ++ z ++ field w 6 3 ++ y) &&& ~~~ 0x0E3F = w &&& ~~~ 0x0E3F := by
  obtain ⟨o, b⟩ := fields_opReg op z (field w 6 3) y
  exact and_eq_and_of_fields [(12, 4), (6, 3)] (by decide) (by simp [o, b, h])

theorem examined_opModeReg {w : Word} {op : BitVec 4} {mode : BitVec 1} (h : field w 12 4 = op)
    (hm : field w 11 1 = mode) (z : BitVec 2) (y : BitVec 6) :
    (op ++ mode ++ z ++ field w 6 3 ++ y) &&& ~~~ 0x063F = w &&& ~~~ 0x063F := by
  obtain ⟨o, m, b⟩ := fields_opModeReg op mode z (field w 6 3) y
  exact and_eq_and_of_fields [(12, 4), (11, 1), (6, 3)] (by decide) (by simp [o, m, b, h, hm])

theorem examined_op8 {w : Word} {op : BitVec 4} (h : field w 12 4 = op) (z : BitVec 4) :
    (op ++ z ++ field w 0 8) &&& ~~~ 0x0F00 = w &&& ~~~ 0x0F00 := by
  obtain ⟨o, v⟩ := fields_op8 op z (field w 0 8)
  exact and_eq_and_of_fields [(12, 4), (0, 8)] (by decide) (by simp [o, v, h])

/-- A word's own row encodes to the word on every bit that carries a field. -/
theorem Row.encode_examined {w ignored : Word} {i : Instr} (row : Row w i ignored) :
    encode i &&& ~~~ ignored = w &&& ~~~ ignored := by
  cases row with
  | br op | ld op | st op | ldi op | sti op | lea op => exact congrArg (· &&& _) (word_eq_opReg9 op)
  | ldr op | str op => exact congrArg (· &&& _) (word_eq_opRegReg6 op)
  | addi op mode | andi op mode => exact congrArg (· &&& _) (word_eq_opRegRegMode5 op mode)
  | jsr op mode => exact congrArg (· &&& _) (word_eq_opMode11 op mode)
  | rti op | res op => exact congrArg (· &&& _) (word_eq_op12 op)
  | add op mode | and op mode => exact examined_opRegRegMode23 op mode 0
  | not op => exact examined_opRegReg op 0x3F
  | jmp op => exact examined_opReg op 0 0
  | jsrr op mode => exact examined_opModeReg op mode 0 0
  | trap op => rw [encode_decodeTrap]; exact examined_op8 op 0

/-- Settles O2: the decoder gives well-formed terms, and a word's row writes each of its fields back. -/
theorem encodeOfDecodeKeepsExaminedBits : Obligations.EncodeOfDecodeKeepsExaminedBits :=
  fun w => ⟨decode_wellFormed w, (row_decode w).encode_examined⟩

/-! ## Flipping ignored bits -/

/-- A field clear of the ignored bits does not see a flip of them. -/
theorem field_xor_ignored {w m ignored : Word} (within : m &&& ~~~ ignored = 0) {lo len : Nat}
    (clear : field ignored lo len = 0) : field (w ^^^ m) lo len = field w lo len := by
  have masked : m &&& ignored = m := by
    apply BitVec.eq_of_getLsbD_eq
    intro i hi
    have bit := congrArg (·.getLsbD i) within
    simpa [hi] using bit
  have untouched : field m lo len = 0 := by
    rw [← masked, field, BitVec.extractLsb'_and]
    exact (congrArg (_ &&& ·) clear).trans BitVec.and_zero
  rw [field, BitVec.extractLsb'_xor]
  exact (congrArg (_ ^^^ ·) untouched).trans BitVec.xor_zero

theorem regField_xor_ignored {w m ignored : Word} (within : m &&& ~~~ ignored = 0) {lo : Nat}
    (clear : field ignored lo 3 = 0) : regField (w ^^^ m) lo = regField w lo :=
  congrArg BitVec.toFin (field_xor_ignored within clear)

/-- A word flipped within a row's ignored bits is in the same row: each field the row has is clear of those bits. -/
theorem Row.xor {w m ignored : Word} {i : Instr} (row : Row w i ignored) (within : m &&& ~~~ ignored = 0) :
    Row (w ^^^ m) i ignored := by
  have same {lo len : Nat} (clear : field ignored lo len = 0) : field (w ^^^ m) lo len = field w lo len :=
    field_xor_ignored within clear
  have sameReg {lo : Nat} (clear : field ignored lo 3 = 0) : regField (w ^^^ m) lo = regField w lo :=
    regField_xor_ignored within clear
  by_cases allExamined : ignored = 0
  · have unflipped : w ^^^ m = w := by
      rw [← field_all (w ^^^ m), same (by rw [allExamined]; decide), field_all]
    rwa [unflipped]
  cases row with
  | add op mode =>
    rw [← sameReg (lo := 9) (by decide), ← sameReg (lo := 6) (by decide), ← sameReg (lo := 0) (by decide)]
    exact .add ((same (by decide)).trans op) ((same (by decide)).trans mode)
  | and op mode =>
    rw [← sameReg (lo := 9) (by decide), ← sameReg (lo := 6) (by decide), ← sameReg (lo := 0) (by decide)]
    exact .and ((same (by decide)).trans op) ((same (by decide)).trans mode)
  | not op =>
    rw [← sameReg (lo := 9) (by decide), ← sameReg (lo := 6) (by decide)]
    exact .not ((same (by decide)).trans op)
  | jmp op =>
    rw [← sameReg (lo := 6) (by decide)]
    exact .jmp ((same (by decide)).trans op)
  | jsrr op mode =>
    rw [← sameReg (lo := 6) (by decide)]
    exact .jsrr ((same (by decide)).trans op) ((same (by decide)).trans mode)
  | trap op =>
    rw [← same (lo := 0) (len := 8) (by decide)]
    exact .trap ((same (by decide)).trans op)
  | _ => exact absurd rfl allExamined

theorem isReserved_decodeTrap (v : Byte) : (decodeTrap v).isReserved = false := by
  unfold decodeTrap
  repeat (split; · rfl)
  rfl

/-- R66: the decoder's invalid case is that of the reserved opcodes. -/
theorem Row.isReserved_iff {w ignored : Word} {i : Instr} (row : Row w i ignored) :
    i.isReserved = true ↔ field w 12 4 = 0x8#4 ∨ field w 12 4 = 0xD#4 := by
  cases row with
  | trap op => rw [isReserved_decodeTrap, op]; decide
  | _ => simp [Instr.isReserved, *]

/-- Settles O3: flipped within its ignored bits, a word stays in its row; and only two rows are reserved. -/
theorem ignoredBitsDoNotChangeDecoding : Obligations.IgnoredBitsDoNotChangeDecoding :=
  ⟨fun w _ within => ((row_decode w).xor within).decode_eq, fun w => (row_decode w).isReserved_iff⟩

end Sys2Proof
end

section
/-! PROOF. The step, and TRAP's dispatch on its vector (30_encoding.md R69, R80, R81; 60_exceptions.md R173, R189). -/

namespace Sys2Proof.Machine

/-- Settles O12: the fetched word in general, and away from KBSR the stored one. -/
theorem stepExecutesTheDecodedInstruction : Obligations.StepExecutesTheDecodedInstruction := by
  intro s i running
  refine ⟨fun decodes => ?_, fun plain decodes => ?_⟩
  · rw [step_of_running running, decodes]
  · rw [step_plain running plain, decodes]

/-- Settles O14: a step looks at `run` first. -/
theorem haltedEngineTakesNoStep : Obligations.HaltedEngineTakesNoStep := by
  intro s e halted
  rw [step, halted]

/-- A service row executes as TRAP with its vector does (log 9). -/
theorem exec_decodeTrap (v : Byte) (s : State) : exec (decodeTrap v) s = exec (.trap v) s := by
  unfold decodeTrap
  repeat (split; · next service => subst service; rfl)
  rfl

/-- Outside 0x20 to 0x25 no vector selects a routine. -/
theorem trap_wellFormed {v : Byte} (outside : v < 0x20 ∨ 0x25 < v) : (Instr.trap v).wellFormed = true := by
  simp only [Instr.wellFormed, isServiceVector, Bool.not_eq_true', Bool.and_eq_false_iff, decide_eq_false_iff_not]
  bv_omega

/-- Raising `UnimplementedTrap` undoes TRAP's link and touches neither memory nor the console (R173, R176). -/
theorem trapUnimplemented_takesFault (v : Byte) (s : State) :
    ∃ t, trapUnimplemented v s = .next t ∧ TakesFault (.unimplementedTrap (s.pc - 1) v) s t ∧ t.mem = s.mem ∧
      t.input = s.input ∧ t.output = s.output :=
  ⟨_, rfl, takesFault_raiseFault (params_trapLink s) _, mem_trapLink s, input_trapLink s, output_trapLink s⟩

/-- Settles O38: the decoder selects the row by the vector, a row executes as TRAP with its vector, and a vector without a
row raises. -/
theorem trapSelectsByItsVector : Obligations.TrapSelectsByItsVector := by
  refine ⟨fun w op => decode_opF op, fun s => ?_, fun s v outside => ?_⟩
  · have row (v : Byte) : exec (.trap v) s = exec (decodeTrap v) s := (exec_decodeTrap v s).symm
    exact ⟨row 0x20, row 0x21, row 0x22, row 0x23, row 0x24, row 0x25⟩
  · have executes : exec (.trap v) s = execTrap v s := rfl
    rw [executes, execTrap_of_wellFormed (trap_wellFormed outside)]
    exact trapUnimplemented_takesFault v s

end Sys2Proof.Machine
end

section
/-! PROOF. The operate family ADD, AND, NOT (40_operate.md R100-R103): each instruction writes one result, by its row of
the decoder. -/

namespace Sys2Proof.Machine

/-! ## What each instruction writes -/

/-- The immediate operand is the library's sign extension of imm5 (R64). -/
theorem immOperand_eq_signExtend (imm5 : BitVec 5) : immOperand imm5 = imm5.signExtend 16 :=
  sext_eq_signExtend (by decide) imm5

theorem exec_add (dr sr1 sr2 : Reg) (s : State) :
    exec (.add dr sr1 sr2) s = .next (writeResult dr (s.reg sr1 + s.reg sr2) s) := rfl

theorem exec_addi (dr sr1 : Reg) (imm5 : BitVec 5) (s : State) :
    exec (.addi dr sr1 imm5) s = .next (writeResult dr (s.reg sr1 + imm5.signExtend 16) s) := by
  rw [← immOperand_eq_signExtend]; rfl

theorem exec_and (dr sr1 sr2 : Reg) (s : State) :
    exec (.and dr sr1 sr2) s = .next (writeResult dr (s.reg sr1 &&& s.reg sr2) s) := rfl

theorem exec_andi (dr sr1 : Reg) (imm5 : BitVec 5) (s : State) :
    exec (.andi dr sr1 imm5) s = .next (writeResult dr (s.reg sr1 &&& imm5.signExtend 16) s) := by
  rw [← immOperand_eq_signExtend]; rfl

/-- Complementing all 16 bits is flipping each of them (R102). -/
theorem exec_not (dr sr : Reg) (s : State) :
    exec (.not dr sr) s = .next (writeResult dr (s.reg sr ^^^ 0xFFFF) s) := by
  have flipped : s.reg sr ^^^ 0xFFFF = ~~~ s.reg sr := BitVec.xor_allOnes
  rw [flipped]; rfl

/-! ## The statements -/

/-- Settles O16: the decoder's row for opcode 0x1, and each mode's one result. -/
theorem addSumsAndSetsFlags : Obligations.AddSumsAndSetsFlags := by
  refine ⟨fun w op => ?_, fun s dr sr1 sr2 => ?_, fun s dr sr1 imm5 => ?_⟩
  · simp only [← regField_eq_regAt]; exact decode_op1 op
  · exact ⟨_, exec_add dr sr1 sr2 s, writesResult_writeResult _ _ _⟩
  · exact ⟨_, exec_addi dr sr1 imm5 s, writesResult_writeResult _ _ _⟩

/-- Settles O17: the decoder's row for opcode 0x5, and each mode's one result. -/
theorem andMasksAndSetsFlags : Obligations.AndMasksAndSetsFlags := by
  refine ⟨fun w op => ?_, fun s dr sr1 sr2 => ?_, fun s dr sr1 imm5 => ?_⟩
  · simp only [← regField_eq_regAt]; exact decode_op5 op
  · exact ⟨_, exec_and dr sr1 sr2 s, writesResult_writeResult _ _ _⟩
  · exact ⟨_, exec_andi dr sr1 imm5 s, writesResult_writeResult _ _ _⟩

/-- Settles O18: the decoder's row for opcode 0x9 has no field in bits 5:0, and NOT writes one result. -/
theorem notComplementsAndSetsFlags : Obligations.NotComplementsAndSetsFlags := by
  refine ⟨fun w op => ?_, fun s dr sr => ?_⟩
  · simp only [← regField_eq_regAt]; exact decode_op9 op
  · exact ⟨_, exec_not dr sr s, writesResult_writeResult _ _ _⟩

/-- Settles O19: with SR2 holding the immediate, the two modes write the same result. -/
theorem immediateAndRegisterModesAgree : Obligations.ImmediateAndRegisterModesAgree := by
  intro s dr sr1 sr2 imm5 holds
  refine ⟨?_, ?_⟩
  · rw [exec_addi, exec_add, holds]
  · rw [exec_andi, exec_and, holds]

end Sys2Proof.Machine
end

section
/-! PROOF. Control transfer (41_control.md R110-R113): each instruction is a row of the decoder that moves PC, with or without
the link in R7. -/

namespace Sys2Proof.Machine

/-! ## The shape of a transfer -/

/-- Moving PC changes nothing else: JMP, and BR when it is taken. -/
theorem transfers_setPc (target : Word) (s : State) : Transfers [] target s (s.setPc target) where
  pc := rfl
  linked _ hq := by cases hq
  regs _ _ := rfl
  cond := rfl
  mem _ := rfl
  rest := ⟨rfl, rfl, rfl, rfl, rfl⟩

/-- Doing nothing is a transfer to the next word: BR when it is not taken. -/
theorem transfers_next (s : State) : Transfers [] s.pc s s where
  pc := rfl
  linked _ hq := by cases hq
  regs _ _ := rfl
  cond := rfl
  mem _ := rfl
  rest := ⟨rfl, rfl, rfl, rfl, rfl⟩

/-- Linking in R7 and then moving PC changes nothing else: JSR and JSRR. -/
theorem transfers_link (target : Word) (s : State) :
    Transfers [linkReg] target s ((s.setReg linkReg s.pc).setPc target) where
  pc := rfl
  linked q hq := by
    rw [List.mem_singleton] at hq
    rw [State.reg_setPc, State.reg_setReg, if_pos hq]
  regs q hq := by
    rw [List.mem_singleton] at hq
    rw [State.reg_setPc, State.reg_setReg, if_neg hq]
  cond := rfl
  mem _ := rfl
  rest := ⟨rfl, rfl, rfl, rfl, rfl⟩

/-! ## What each instruction does -/

/-- The PC-relative target is the library's sign extension of the offset (R65). -/
theorem pcRelative_eq_signExtend {n : Nat} (hn : 0 < n) (off : BitVec n) (s : State) :
    pcRelative off s = s.pc + off.signExtend 16 := by
  rw [pcRelative, sext_eq_signExtend hn]

/-- BR's test is the one R110 writes. -/
theorem branchTaken_iff_and_ne_zero (nzp : BitVec 3) (s : State) :
    branchTaken nzp s = true ↔ nzp.setWidth 16 &&& s.cond ≠ 0 := bne_iff_ne

theorem exec_br_of_taken {nzp : BitVec 3} {s : State} (taken : nzp.setWidth 16 &&& s.cond ≠ 0) (off9 : BitVec 9) :
    exec (.br nzp off9) s = .next (s.setPc (s.pc + off9.signExtend 16)) := by
  have executes : exec (.br nzp off9) s = execBr nzp off9 s := rfl
  rw [executes, execBr, if_pos ((branchTaken_iff_and_ne_zero nzp s).mpr taken), pcRelative_eq_signExtend (by decide)]

theorem exec_br_of_not_taken {nzp : BitVec 3} {s : State} (untaken : ¬ nzp.setWidth 16 &&& s.cond ≠ 0)
    (off9 : BitVec 9) : exec (.br nzp off9) s = .next s := by
  have executes : exec (.br nzp off9) s = execBr nzp off9 s := rfl
  rw [executes, execBr, if_neg (mt (branchTaken_iff_and_ne_zero nzp s).mp untaken)]

theorem exec_jmp (base : Reg) (s : State) : exec (.jmp base) s = .next (s.setPc (s.reg base)) := rfl

theorem exec_jsr (off11 : BitVec 11) (s : State) :
    exec (.jsr off11) s = .next ((s.setReg linkReg s.pc).setPc (s.pc + off11.signExtend 16)) := by
  rw [← pcRelative_eq_signExtend (by decide)]; rfl

/-- JSRR reads its base after the link is written, so R7 gives the link itself (R113). -/
theorem exec_jsrr (base : Reg) (s : State) :
    exec (.jsrr base) s =
      .next ((s.setReg linkReg s.pc).setPc (if base = linkReg then s.pc else s.reg base)) := by
  rw [← State.reg_setReg]; rfl

/-! ## The statements -/

/-- Settles O20: the decoder's row for opcode 0x0, and the two outcomes of the test. -/
theorem brTestsTheMaskAgainstCond : Obligations.BrTestsTheMaskAgainstCond := by
  refine ⟨fun w op => decode_op0 op, fun s nzp off9 => ?_⟩
  split
  · next taken => exact ⟨_, exec_br_of_taken taken off9, transfers_setPc _ s⟩
  · next untaken => exact ⟨_, exec_br_of_not_taken untaken off9, transfers_next s⟩

/-- Settles O22: the decoder's row for opcode 0xC, and the base register as the target. -/
theorem jmpGoesToTheBaseRegister : Obligations.JmpGoesToTheBaseRegister := by
  refine ⟨fun w op => ?_, fun s base => ?_⟩
  · rw [← regField_eq_regAt]; exact decode_opC op
  · exact ⟨_, exec_jmp base s, transfers_setPc _ s⟩

/-- Settles O23: the decoder's row for opcode 0x4 with bit 11 set; the target is relative to the PC that is linked. -/
theorem jsrLinksAndGoesToTheOffset : Obligations.JsrLinksAndGoesToTheOffset := by
  refine ⟨fun w op mode => ?_, fun s off11 => ?_⟩
  · exact (Row.jsr op mode).decode_eq
  · exact ⟨_, exec_jsr off11 s, transfers_link _ s⟩

/-- Settles O24: the decoder's row for opcode 0x4 with bit 11 clear; the base is read from the linked registers. -/
theorem jsrrLinksThenReadsTheBase : Obligations.JsrrLinksThenReadsTheBase := by
  refine ⟨fun w op mode => ?_, fun s base => ?_⟩
  · rw [← regField_eq_regAt]; exact (Row.jsrr op mode).decode_eq
  · exact ⟨_, exec_jsrr base s, transfers_link _ s⟩

end Sys2Proof.Machine
end

section
/-! PROOF. Loads and LEA (42_load.md R120-R123): each instruction is a row of the decoder that writes one result, LEA the
address itself, the loads the word read at it. -/

namespace Sys2Proof.Machine

/-! ## Loading from an address -/

/-- The base-plus-offset address is the library's sign extension of the offset (R65). -/
theorem baseRelative_eq_signExtend (base : Reg) (off6 : BitVec 6) (s : State) :
    baseRelative base off6 s = s.reg base + off6.signExtend 16 := by
  rw [baseRelative, sext_eq_signExtend (by decide)]

/-- A load writes the word `MemRead` gives, over the state the read leaves. -/
theorem writesResult_loadFrom (dr : Reg) (a : Word) (s : State) :
    WritesResult dr (s.memRead a) (s.afterRead a) (loadFrom dr a s) :=
  writesResult_writeResult _ _ _

/-- Away from KBSR a load writes the stored word, and its read changes nothing (R41). -/
theorem writesResult_loadFrom_plain {a : Word} {s : State} (plain : a ≠ s.params.kbsrAddr) (dr : Reg) :
    WritesResult dr (s.mem.read a) s (loadFrom dr a s) := by
  have loaded := writesResult_loadFrom dr a s
  rwa [State.memRead_plain plain, State.afterRead_plain plain] at loaded

/-! ## What each instruction does -/

theorem exec_ld (dr : Reg) (off9 : BitVec 9) (s : State) :
    exec (.ld dr off9) s = .next (loadFrom dr (s.pc + off9.signExtend 16) s) := by
  rw [← pcRelative_eq_signExtend (by decide)]; rfl

/-- LDI loads from where the pointer says, in the state the pointer's read leaves (R121). -/
theorem exec_ldi (dr : Reg) (off9 : BitVec 9) (s : State) :
    exec (.ldi dr off9) s = .next
      (loadFrom dr (s.memRead (s.pc + off9.signExtend 16)) (s.afterRead (s.pc + off9.signExtend 16))) := by
  rw [← pcRelative_eq_signExtend (by decide)]; rfl

theorem exec_ldr (dr base : Reg) (off6 : BitVec 6) (s : State) :
    exec (.ldr dr base off6) s = .next (loadFrom dr (s.reg base + off6.signExtend 16) s) := by
  rw [← baseRelative_eq_signExtend]; rfl

theorem exec_lea (dr : Reg) (off9 : BitVec 9) (s : State) :
    exec (.lea dr off9) s = .next (writeResult dr (s.pc + off9.signExtend 16) s) := by
  rw [← pcRelative_eq_signExtend (by decide)]; rfl

/-! ## The statements -/

/-- Settles O30: the decoder's row for opcode 0x2, and one load from the PC-relative address. -/
theorem ldLoadsPcRelative : Obligations.LdLoadsPcRelative := by
  refine ⟨fun w op => ?_, fun s dr off9 => ?_⟩
  · rw [← regField_eq_regAt]; exact decode_op2 op
  · exact ⟨_, exec_ld dr off9 s, writesResult_loadFrom dr _ s, fun plain => writesResult_loadFrom_plain plain dr⟩

/-- Settles O31: the decoder's row for opcode 0xA, and a load through the pointer; with the pointer away from KBSR its read
leaves the state as it was, so the load is one from the stored pointer. -/
theorem ldiLoadsThroughThePointer : Obligations.LdiLoadsThroughThePointer := by
  refine ⟨fun w op => ?_, fun s dr off9 => ⟨_, exec_ldi dr off9 s, ?_, ?_⟩⟩
  · rw [← regField_eq_regAt]; exact decode_opA op
  · rintro _ _ _ rfl rfl rfl
    exact writesResult_loadFrom dr _ _
  · rintro _ rfl pointerPlain dataPlain
    rw [State.memRead_plain pointerPlain, State.afterRead_plain pointerPlain]
    exact writesResult_loadFrom_plain dataPlain dr

/-- Settles O32: the decoder's row for opcode 0x6, and one load from the base-plus-offset address, which is computed before
DR is written. -/
theorem ldrLoadsBasePlusOffset : Obligations.LdrLoadsBasePlusOffset := by
  refine ⟨fun w op => ?_, fun s dr base off6 => ?_⟩
  · simp only [← regField_eq_regAt]; exact decode_op6 op
  · exact ⟨_, exec_ldr dr base off6 s, writesResult_loadFrom dr _ s, fun plain => writesResult_loadFrom_plain plain dr⟩

/-- Settles O33: the decoder's row for opcode 0xE, and the address as the one result, without a read. -/
theorem leaGivesTheAddressAndItsFlags : Obligations.LeaGivesTheAddressAndItsFlags := by
  refine ⟨fun w op => ?_, fun s dr off9 => ?_⟩
  · rw [← regField_eq_regAt]; exact decode_opE op
  · exact ⟨_, exec_lea dr off9 s, writesResult_writeResult _ _ _⟩

end Sys2Proof.Machine
end

section
/-! PROOF. Stores (43_store.md R130-R133): each is a row of the decoder that writes one word; every other instruction leaves
memory to the keyboard refresh. -/

namespace Sys2Proof.Machine

/-! ## What each store does -/

theorem exec_st (sr : Reg) (off9 : BitVec 9) (s : State) :
    exec (.st sr off9) s = .next (s.memWrite (s.pc + off9.signExtend 16) (s.reg sr)) := by
  rw [← pcRelative_eq_signExtend (by decide)]; rfl

/-- STI stores where the pointer says, in the state the pointer's read leaves (R131). -/
theorem exec_sti (sr : Reg) (off9 : BitVec 9) (s : State) :
    exec (.sti sr off9) s = .next ((s.afterRead (s.pc + off9.signExtend 16)).memWrite
      (s.memRead (s.pc + off9.signExtend 16)) (s.reg sr)) := by
  rw [← pcRelative_eq_signExtend (by decide)]; rfl

theorem exec_str (sr base : Reg) (off6 : BitVec 6) (s : State) :
    exec (.str sr base off6) s = .next (s.memWrite (s.reg base + off6.signExtend 16) (s.reg sr)) := by
  rw [← baseRelative_eq_signExtend]; rfl

/-! ## The statements about the stores -/

/-- Settles O34: the decoder's row for opcode 0x3, and one write at the PC-relative address. -/
theorem stStoresPcRelative : Obligations.StStoresPcRelative := by
  refine ⟨fun w op => ?_, fun s sr off9 wf => ?_⟩
  · rw [← regField_eq_regAt]; exact decode_op3 op
  · exact ⟨_, exec_st sr off9 s, storesWord_memWrite wf _ _⟩

/-- Settles O35: the decoder's row for opcode 0xB, and one write through the pointer, whose read keeps memory canonical; with
the pointer away from KBSR its read leaves the state as it was. -/
theorem stiStoresThroughThePointer : Obligations.StiStoresThroughThePointer := by
  refine ⟨fun w op => ?_, fun s sr off9 wf => ⟨_, exec_sti sr off9 s, ?_, fun plain => ?_⟩⟩
  · rw [← regField_eq_regAt]; exact decode_opB op
  · exact storesWord_memWrite (State.afterRead_wf wf _) _ _
  · rw [State.memRead_plain plain, State.afterRead_plain plain]
    exact storesWord_memWrite wf _ _

/-- Settles O36: the decoder's row for opcode 0x7, and one write at the base-plus-offset address. -/
theorem strStoresBasePlusOffset : Obligations.StrStoresBasePlusOffset := by
  refine ⟨fun w op => ?_, fun s sr base off6 wf => ?_⟩
  · simp only [← regField_eq_regAt]; exact decode_op7 op
  · exact ⟨_, exec_str sr base off6 s, storesWord_memWrite wf _ _⟩

/-! ## What every other instruction does to memory -/

/-- What the keyboard refresh may do to memory, and no more: every word but the keyboard's reads as before, and the
parameters, which say where those two are, are kept. -/
structure MemoryFrame (s t : State) : Prop where
  params : t.params = s.params
  mem : ∀ a, a ≠ s.params.kbsrAddr → a ≠ s.params.kbdrAddr → t.mem.read a = s.mem.read a

/-- Updates of the registers, of `run` and of the console leave memory alone. -/
theorem MemoryFrame.of_mem_eq {s t : State} (params : t.params = s.params) (mem : t.mem = s.mem) : MemoryFrame s t :=
  ⟨params, fun _ _ _ => by rw [mem]⟩

theorem MemoryFrame.trans {s t u : State} (h : MemoryFrame s t) (k : MemoryFrame t u) : MemoryFrame s u where
  params := k.params.trans h.params
  mem a status data := by rw [k.mem a (by rwa [h.params]) (by rwa [h.params]), h.mem a status data]

theorem ConsoleFrame.memoryFrame {s t : State} (h : ConsoleFrame s t) : MemoryFrame s t := ⟨h.params, h.mem⟩

theorem memoryFrame_trapLink (s : State) : MemoryFrame s (trapLink s) := .of_mem_eq (params_trapLink s) (mem_trapLink s)

theorem memoryFrame_loadFrom (dr : Reg) (a : Word) (s : State) : MemoryFrame s (loadFrom dr a s) :=
  (consoleFrame_afterRead s a).memoryFrame.trans (.of_mem_eq rfl rfl)

/-- A fault undoes registers and no memory (R176), so both ends of a routine have its frame. -/
theorem memoryFrame_finish {start s : State} {x : Flow} (h : MemoryFrame s x.state) : MemoryFrame s (x.finish start) := by
  cases x with
  | done t => exact h
  | raised t f => exact h.trans (.of_mem_eq rfl rfl)

theorem memoryFrame_andThen {s : State} {x : Flow} {k : State → Flow} (h : MemoryFrame s x.state)
    (goesOn : ∀ t, MemoryFrame t (k t).state) : MemoryFrame s (x.andThen k).state := by
  cases x with
  | done t => exact h.trans (goesOn t)
  | raised t f => exact h

/-! ## TRAP's routines (R150) -/

/-- A routine of reads and writes alone, after TRAP's link: OUT, PUTS and PUTSP. -/
theorem memoryFrame_console {start s : State} {x : Flow} (h : ConsoleFrame (trapLink s) x.state) :
    MemoryFrame s (x.finish start) :=
  memoryFrame_finish ((memoryFrame_trapLink s).trans h.memoryFrame)

theorem memoryFrame_getcRoutine (start : State) (answer : Option Byte) (s : State) :
    MemoryFrame s (getcRoutine start answer s).state := by
  cases answer with
  | none => exact .of_mem_eq rfl rfl
  | some b => exact .of_mem_eq rfl rfl

theorem memoryFrame_inRoutine (start : State) (answer : Option Byte) (s : State) :
    MemoryFrame s (inRoutine start answer s).state := by
  cases answer with
  | none => exact .of_mem_eq rfl rfl
  | some b => exact memoryFrame_andThen (consoleFrame_consoleOut _ b s).memoryFrame fun _ => .of_mem_eq rfl rfl

theorem memoryFrame_haltRoutine (start s : State) : MemoryFrame s (haltRoutine start s).state :=
  memoryFrame_andThen (consoleFrame_consoleOutStr _ _ s).memoryFrame fun _ => .of_mem_eq rfl rfl

theorem memoryFrame_trapGetc {s t : State} (h : trapGetc s = .next t) : MemoryFrame s t := by
  unfold trapGetc at h
  split at h
  · cases h
  · next answer input _ =>
    cases h
    have answered : MemoryFrame s ((trapLink s).setInput input) := (memoryFrame_trapLink s).trans (.of_mem_eq rfl rfl)
    exact memoryFrame_finish (answered.trans (memoryFrame_getcRoutine _ answer _))

/-- IN: its prompt has a console frame, whether the host answers after it or not. -/
theorem memoryFrame_trapIn {s t : State} (h : trapIn s = .next t) : MemoryFrame s t := by
  have prompt : MemoryFrame s (inPromptRoutine s (trapLink s)).state :=
    (memoryFrame_trapLink s).trans (consoleFrame_consoleOutStr _ _ _).memoryFrame
  unfold trapIn at h
  split at h
  · split at h
    · next u f refused => cases h; rw [refused] at prompt; exact prompt.trans (.of_mem_eq rfl rfl)
    · cases h
  · next answer input _ =>
    cases h
    exact memoryFrame_finish <| memoryFrame_andThen prompt fun u =>
      (consoleFrame_setInput u input).memoryFrame.trans (memoryFrame_inRoutine s answer _)

/-- TRAP, by its vector (R140). -/
theorem memoryFrame_execTrap {v : Byte} {s t : State} (h : execTrap v s = .next t) : MemoryFrame s t := by
  unfold execTrap at h
  split at h
  · exact memoryFrame_trapGetc h
  split at h
  · cases h; exact memoryFrame_console (consoleFrame_consoleOut _ _ _)
  split at h
  · cases h; exact memoryFrame_console (consoleFrame_scanString _ _ _ _ _ _)
  split at h
  · exact memoryFrame_trapIn h
  split at h
  · cases h; exact memoryFrame_console (consoleFrame_scanString _ _ _ _ _ _)
  split at h
  · cases h; exact memoryFrame_finish ((memoryFrame_trapLink s).trans (memoryFrame_haltRoutine s _))
  · cases h; exact (memoryFrame_trapLink s).trans (.of_mem_eq rfl rfl)

/-! ## Every instruction -/

/-- An instruction that is no store touches memory by its reads alone (R133); a service row does as TRAP with its vector. -/
theorem exec_memoryFrame {i : Instr} {s t : State} (noStore : isStore i = false) (h : exec i s = .next t) :
    MemoryFrame s t := by
  cases i with
  | st | sti | str => cases noStore
  | add | addi | and | andi | not | lea | jmp | jsr | jsrr | rti | res => cases h; exact .of_mem_eq rfl rfl
  | br => cases h; split <;> exact .of_mem_eq rfl rfl
  | ld | ldr => cases h; exact memoryFrame_loadFrom _ _ s
  | ldi => cases h; exact (consoleFrame_afterRead s _).memoryFrame.trans (memoryFrame_loadFrom _ _ _)
  | trap v => exact memoryFrame_execTrap h
  | getc => exact memoryFrame_execTrap (v := 0x20) h
  | out => exact memoryFrame_execTrap (v := 0x21) h
  | puts => exact memoryFrame_execTrap (v := 0x22) h
  | inChar => exact memoryFrame_execTrap (v := 0x23) h
  | putsp => exact memoryFrame_execTrap (v := 0x24) h
  | halt => exact memoryFrame_execTrap (v := 0x25) h

/-- Settles O52: the frame of every instruction that is no store, a fault taken included. -/
theorem onlyStoresWriteMemory : Obligations.OnlyStoresWriteMemory :=
  fun _ _ _ noStore h => (exec_memoryFrame noStore h).mem

end Sys2Proof.Machine
end

section
/-! PROOF. The trap service routines (44_trap.md R140-R148): each is TRAP's link, then writes, a read or a string scan, then
the routine's own result. -/

namespace Sys2Proof.Machine

/-! ## The writes of a routine -/

@[simp] theorem output_wrote (s : State) (bs : List Byte) (n : Nat) :
    (s.wrote bs n).output = ⟨s.output.bytes ++ bs, answersAfter n s.output.accepts⟩ := rfl

@[simp] theorem mem_wrote (s : State) (bs : List Byte) (n : Nat) : (s.wrote bs n).mem = s.mem := rfl

@[simp] theorem params_wrote (s : State) (bs : List Byte) (n : Nat) : (s.wrote bs n).params = s.params := rfl

theorem consoleFrame_wrote (s : State) (bs : List Byte) (n : Nat) : ConsoleFrame s (s.wrote bs n) :=
  consoleFrame_setOutput s _

theorem consoleOut_accepted (f : FaultKind) (b : Byte) {s : State}
    (accepted : s.output.accepts.next Config.freeAccept = true) : consoleOut f b s = .done (s.wrote [b] 1) := by
  rcases consoleOut_cases f b s with ⟨_, written⟩ | ⟨refused, _⟩
  · exact written
  · cases refused.symm.trans accepted

theorem consoleOut_refused (f : FaultKind) (b : Byte) {s : State}
    (refused : s.output.accepts.next Config.freeAccept = false) : consoleOut f b s = .raised (s.wrote [] 1) f := by
  rcases consoleOut_cases f b s with ⟨accepted, _⟩ | ⟨_, raised⟩
  · cases accepted.symm.trans refused
  · rw [raised, State.wrote, List.append_nil]; rfl

/-- A routine that wrote `bs` and did nothing else: R141's registers, the output, and nothing of the rest. -/
structure OnlyWrites (bs : List Byte) (s t : State) : Prop where
  out : t.out = s.out ++ bs
  regs : TrapRegs [] s t
  cond : t.cond = s.cond
  mem : SameMemory s t
  run : t.run = s.run
  input : t.input = s.input

theorem onlyWrites_wrote (s : State) (bs : List Byte) (n : Nat) : OnlyWrites bs s ((trapLink s).wrote bs n) where
  out := by simp
  regs := (consoleFrame_wrote _ _ _).trapRegs
  cond := cond_trapLink s
  mem _ := by simp
  run := run_trapLink s
  input := input_trapLink s

/-- A fault undoes the registers and keeps what was written (R176). -/
theorem OnlyWrites.takesFault {bs : List Byte} {s t : State} (h : OnlyWrites bs s t) (f : FaultKind) :
    TakesFault f s (raiseFault s t f) := takesFault_raiseFault h.regs.fixed.2 f

/-- A routine's result goes to R0; TRAP's link stands beside it (R141). -/
theorem ConsoleFrame.trapRegs_setArg {s u : State} (h : ConsoleFrame (trapLink s) u) (v : Word) :
    TrapRegs [0] s (u.setReg argReg v) :=
  h.trapRegs.extend (fun q other => by simp_all [argReg]) rfl ⟨rfl, rfl⟩

/-! ## GETC (R142) -/

theorem exec_getc_byte {s : State} {b : Byte} {c : ConsoleInput} (read : s.input.read = some (some b, c)) :
    exec .getc s = .next (((trapLink s).setInput c).setReg argReg (zext b)) := by
  have executes : exec .getc s = trapGetc s := rfl
  rw [executes, trapGetc, read]; rfl

theorem exec_getc_end {s : State} {c : ConsoleInput} (read : s.input.read = some (none, c)) :
    exec .getc s = .next (raiseFault s ((trapLink s).setInput c) (.consoleIoError s.instrAddr .getc .read)) := by
  have executes : exec .getc s = trapGetc s := rfl
  rw [executes, trapGetc, read]; rfl

/-- Settles O39: the host's answer to the one read decides between R0 and the fault. -/
theorem getcReadsAByteIntoR0 : Obligations.GetcReadsAByteIntoR0 := by
  intro s
  refine ⟨fun b c read => ⟨_, exec_getc_byte read, ?_⟩, fun c read => ⟨_, exec_getc_end read, ?_⟩⟩
  · have regs := (consoleFrame_setInput (trapLink s) c).trapRegs_setArg (zext b)
    exact ⟨by simp [argReg, zext], regs, by simp, fun _ => by simp, by simp, rfl, by simp⟩
  · exact ⟨takesFault_raiseFault (t := (trapLink s).setInput c) (params_trapLink s) _, fun _ => by simp, rfl, by simp⟩

/-! ## OUT (R143) -/

theorem exec_out_accepted {s : State} (accepted : s.output.accepts.next Config.freeAccept = true) :
    exec .out s = .next ((trapLink s).wrote [loByte (s.reg argReg)] 1) := by
  have executes : exec .out s = .next ((outRoutine s (trapLink s)).finish s) := rfl
  rw [executes, outRoutine, consoleOut_accepted _ _ (by simpa using accepted), argReg, arg_trapLink]; rfl

theorem exec_out_refused {s : State} (refused : s.output.accepts.next Config.freeAccept = false) :
    exec .out s = .next (raiseFault s ((trapLink s).wrote [] 1) (.consoleIoError s.instrAddr .out .write)) := by
  have executes : exec .out s = .next ((outRoutine s (trapLink s)).finish s) := rfl
  rw [executes, outRoutine, consoleOut_refused _ _ (by simpa using refused)]; rfl

/-- Settles O40: one write of bits 7:0, or none and the fault. -/
theorem outWritesTheLowByteOfR0 : Obligations.OutWritesTheLowByteOfR0 := by
  intro s
  refine ⟨fun accepted => ⟨_, exec_out_accepted accepted, ?_⟩, fun refused => ⟨_, exec_out_refused refused, ?_⟩⟩
  · obtain ⟨out, regs, cond, mem, run, input⟩ := onlyWrites_wrote s [loByte (s.reg argReg)] 1
    exact ⟨out, regs, cond, mem, run, input⟩
  · have written := onlyWrites_wrote s [] 1
    exact ⟨by simp, written.takesFault _, written.mem, written.input⟩

/-! ## HALT (R147) -/

theorem exec_halt_accepted {s : State} (accepted : acceptsNext s.params.haltAnnounce.length s.output.accepts = true) :
    exec .halt s =
      .next (((trapLink s).wrote s.params.haltAnnounce s.params.haltAnnounce.length).setHalted .clean) := by
  have executes : exec .halt s = .next ((haltRoutine s (trapLink s)).finish s) := rfl
  rw [executes, haltRoutine, params_trapLink, consoleOutStr_wrote _ _ _ (by simpa using accepted)]; rfl

/-- Settles O47: the announcement is all that is written, and the exit changes `run` alone. -/
theorem haltAnnouncesAndEndsCleanly : Obligations.HaltAnnouncesAndEndsCleanly := by
  intro s accepted
  obtain ⟨out, ⟨linked, regs, pc, fixed⟩, cond, mem, -, input⟩ :=
    onlyWrites_wrote s s.params.haltAnnounce s.params.haltAnnounce.length
  exact ⟨_, exec_halt_accepted accepted, rfl, out, ⟨linked, regs, pc, fixed⟩, cond, mem, input, rfl⟩

/-! ## IN (R145) -/

/-- IN with its prompt written and its read answered; `c` is the input after the answer. -/
def State.prompted (s : State) (c : ConsoleInput) : State :=
  ((trapLink s).wrote s.params.inPrompt s.params.inPrompt.length).setInput c

theorem consoleFrame_prompted (s : State) (c : ConsoleInput) : ConsoleFrame (trapLink s) (s.prompted c) :=
  (consoleFrame_wrote _ _ _).trans (consoleFrame_setInput _ c)

/-- An accepted prompt leaves IN to its answer. -/
theorem exec_in_prompted {s : State} {answer : Option Byte} {c : ConsoleInput} (read : s.input.read = some (answer, c))
    (accepted : acceptsNext s.params.inPrompt.length s.output.accepts = true) :
    exec .inChar s = .next ((inRoutine s answer (s.prompted c)).finish s) := by
  have executes : exec .inChar s = trapIn s := rfl
  rw [executes, trapIn, read, inPromptRoutine, params_trapLink, consoleOutStr_wrote _ _ _ (by simpa using accepted)]
  rfl

/-- A byte is echoed, then goes to R0 and the flags. -/
theorem exec_in_byte {s : State} {b : Byte} {c : ConsoleInput} (read : s.input.read = some (some b, c))
    (accepted : acceptsNext (s.params.inPrompt.length + 1) s.output.accepts = true) :
    exec .inChar s = .next (writeResult argReg (zext b) ((s.prompted c).wrote [b] 1)) := by
  rw [acceptsNext_add, Bool.and_eq_true] at accepted
  obtain ⟨promptAccepted, echoAccepted⟩ := accepted
  have echo : (s.prompted c).output.accepts.next Config.freeAccept = true := by
    simpa [acceptsNext, State.prompted] using echoAccepted
  rw [exec_in_prompted read promptAccepted, inRoutine, consoleOut_accepted _ _ echo]
  rfl

/-- The end of input raises after the prompt. -/
theorem exec_in_end {s : State} {c : ConsoleInput} (read : s.input.read = some (none, c))
    (accepted : acceptsNext s.params.inPrompt.length s.output.accepts = true) :
    exec .inChar s = .next (raiseFault s (s.prompted c) (.consoleIoError s.instrAddr .inChar .read)) :=
  exec_in_prompted read accepted

/-- Settles O45: what memory, `run` and the output hold is the prompt's doing, but for the echo after it; the answer decides
between R0 with the flags and the fault. -/
theorem inPromptsReadsEchoesAndSetsFlags : Obligations.InPromptsReadsEchoesAndSetsFlags := by
  intro s
  obtain ⟨out, -, -, mem, run, -⟩ := onlyWrites_wrote s s.params.inPrompt s.params.inPrompt.length
  refine ⟨fun b c read accepted => ⟨_, exec_in_byte read accepted, ?_⟩,
    fun c read accepted => ⟨_, exec_in_end read accepted, ?_⟩⟩
  · have frame : ConsoleFrame (trapLink s) ((s.prompted c).wrote [b] 1) :=
      (consoleFrame_prompted s c).trans (consoleFrame_wrote _ _ _)
    have written : (s.prompted c).out ++ [b] = s.out ++ s.params.inPrompt ++ [b] := congrArg (· ++ [b]) out
    obtain ⟨linked, regs, pc, fixed⟩ := frame.trapRegs_setArg (zext b)
    exact ⟨written, by simp [argReg, zext], flagsReflect_flagOf _, ⟨linked, regs, pc, fixed⟩, mem, run, rfl⟩
  · exact ⟨out, takesFault_raiseFault (t := s.prompted c) (params_trapLink s) _, mem, rfl⟩

end Sys2Proof.Machine
end

section
/-! PROOF. The string routines PUTS and PUTSP (44_trap.md R144, R146, R148): one turn of their loop, then the loop as R144
writes it (`Scans`), and on a string that memory holds. -/

namespace Sys2Proof.Machine

/-! ## One turn of the loop -/

section
variable {f g : FaultKind} {chars : Word → List Byte} {n : Nat} {p : Word} {s : State}

theorem scanString_zeroWord (zero : s.memRead p = 0x0000) :
    scanString f g chars (n + 1) p s = .done (s.afterRead p) := by
  rw [scanString, if_pos zero]; rfl

/-- A word whose characters the host accepts: the loop goes on with the next. -/
theorem scanString_char (more : s.memRead p ≠ 0x0000)
    (accepted : acceptsNext (chars (s.memRead p)).length s.output.accepts = true) :
    scanString f g chars (n + 1) p s = scanString f g chars n (p + 1)
      ((s.afterRead p).wrote (chars (s.memRead p)) (chars (s.memRead p)).length) := by
  rw [scanString, if_neg more, consoleOutStr_wrote _ _ _ (by simpa using accepted)]; rfl

/-- A word of which the host refuses the character after the first `k`. -/
theorem scanString_refused {k : Nat} (more : s.memRead p ≠ 0x0000) (short : k < (chars (s.memRead p)).length)
    (accepted : acceptsNext k s.output.accepts = true)
    (refused : (answersAfter k s.output.accepts).next Config.freeAccept = false) :
    scanString f g chars (n + 1) p s =
      .raised ((s.afterRead p).wrote ((chars (s.memRead p)).take k) (k + 1)) f := by
  rw [scanString, if_neg more, consoleOutStr_refused f _ _ k short (by simpa using accepted) (by simpa using refused)]; rfl

end

/-! ## The loop of the rules -/

/-- The word at `p` is one of those up to 0xFFFF. -/
theorem exists_wordsToTop_eq_succ (p : Word) : ∃ n, wordsToTop p = n + 1 :=
  Nat.exists_eq_add_one.mpr (Nat.sub_pos_of_lt p.isLt)

/-- Below 0xFFFF the next address has one word less above it. -/
theorem wordsToTop_succ {p : Word} (inside : p ≠ 0xFFFF) : wordsToTop p = wordsToTop (p + 1) + 1 := by
  unfold wordsToTop; bv_omega

/-- What a scan has answered when its loop ended so in state `t`: `f` is the fault of a failed write, `g` that of a wrap. -/
def ScanEnd.flow (f g : FaultKind) (t : State) : ScanEnd → Flow
  | .zeroWord => .done t
  | .wrapped => .raised t g
  | .writeFailed => .raised t f

/-- The scan up to 0xFFFF follows the loop turn by turn. -/
theorem scanString_of_scans {f g : FaultKind} {chars : Word → List Byte} {p : Word} {s t : State} {e : ScanEnd}
    (loop : Scans chars p s e t) : scanString f g chars (wordsToTop p) p s = e.flow f g t := by
  induction loop with
  | stop p s zero =>
    obtain ⟨n, fuel⟩ := exists_wordsToTop_eq_succ p
    rw [fuel, scanString_zeroWord zero]; rfl
  | char p s e t more inside accepted _ ih => rw [wordsToTop_succ inside, scanString_char more accepted, ih]
  | wrap s more accepted =>
    have last : wordsToTop 0xFFFF = 0 + 1 := by decide
    rw [last, scanString_char more accepted]; rfl
  | fail p s n more short accepted refused =>
    obtain ⟨k, fuel⟩ := exists_wordsToTop_eq_succ p
    rw [fuel, scanString_refused more short accepted refused]; rfl

/-! ## A string that memory holds -/

/-- The first word of a string, and the string after it; after the word at 0xFFFF that one is empty. -/
theorem HoldsWords.cons {m : Memory} {kbsr p w : Word} {ws : List Word} (h : HoldsWords m kbsr p (w :: ws)) :
    p ≠ kbsr ∧ m.read p = w ∧ w ≠ 0x0000 ∧ HoldsWords m kbsr (p + 1) ws := by
  obtain ⟨fits, nonzero, words, clear⟩ := h
  have next (k : Nat) : p + 1 + BitVec.ofNat 16 k = p + BitVec.ofNat 16 (k + 1) := by bv_omega
  have first : m.read p = w := (congrArg m.read (BitVec.add_zero p).symm).trans (words 0 (Nat.zero_lt_succ _))
  refine ⟨by simpa using clear 0 (by simp), first, nonzero w (by simp), ?_,
    fun v hv => nonzero v (by simp [hv]), fun k hk => ?_, fun k hk => ?_⟩
  · rw [List.length_cons] at fits; bv_omega
  · rw [next]; exact words (k + 1) (by simpa using hk)
  · rw [next]; exact clear (k + 1) (by simpa using hk)

/-- The scan writes the characters of the words held, changes nothing else, and goes on behind them. -/
theorem scanString_of_holdsWords {f g : FaultKind} {chars : Word → List Byte} (n : Nat) :
    ∀ (ws : List Word) (p : Word) (s : State), HoldsWords s.mem s.params.kbsrAddr p ws →
      acceptsNext (ws.flatMap chars).length s.output.accepts = true →
      scanString f g chars (ws.length + n) p s = scanString f g chars n (p + BitVec.ofNat 16 ws.length)
        (s.wrote (ws.flatMap chars) (ws.flatMap chars).length)
  | [], p, s, _, _ => by simp [State.wrote, State.setOutput, answersAfter]
  | w :: ws, p, s, held, accepted => by
    obtain ⟨plain, word, nonzero, rest⟩ := held.cons
    have read : s.memRead p = w := (State.memRead_plain plain).trans word
    rw [List.flatMap_cons, List.length_append, acceptsNext_add, Bool.and_eq_true] at accepted
    obtain ⟨first, others⟩ := accepted
    have fuel : (w :: ws).length + n = ws.length + n + 1 := by rw [List.length_cons]; omega
    have address : p + 1 + BitVec.ofNat 16 ws.length = p + BitVec.ofNat 16 (w :: ws).length := by
      rw [List.length_cons]; bv_omega
    have goesOn := scanString_of_holdsWords (f := f) (g := g) n ws (p + 1) (s.wrote (chars w) (chars w).length) rest others
    rw [fuel, scanString_char (by rwa [read]) (by rwa [read]), read, State.afterRead_plain plain, goesOn, address,
      State.wrote_wrote, List.flatMap_cons, List.length_append]

/-- A string with a zero word behind it is written, and the scan completes. -/
theorem scanString_of_terminated {f g : FaultKind} {chars : Word → List Byte} {ws : List Word} {p : Word} {s : State}
    (held : HoldsWords s.mem s.params.kbsrAddr p ws) (inside : p.toNat + ws.length ≤ 0xFFFF)
    (zero : s.mem.read (p + BitVec.ofNat 16 ws.length) = 0x0000)
    (plain : p + BitVec.ofNat 16 ws.length ≠ s.params.kbsrAddr)
    (accepted : acceptsNext (ws.flatMap chars).length s.output.accepts = true) :
    scanString f g chars (wordsToTop p) p s = .done (s.wrote (ws.flatMap chars) (ws.flatMap chars).length) := by
  have fuel : wordsToTop p = ws.length + (0xFFFF - p.toNat - ws.length + 1) := by rw [wordsToTop]; omega
  have stops : (s.wrote (ws.flatMap chars) (ws.flatMap chars).length).memRead (p + BitVec.ofNat 16 ws.length) = 0x0000 := by
    rw [State.memRead_plain (by simpa using plain), mem_wrote, zero]
  rw [fuel, scanString_of_holdsWords _ ws p s held accepted, scanString_zeroWord stops,
    State.afterRead_plain (by simpa using plain)]

/-- A string up to 0xFFFF is written, and the scan wraps. -/
theorem scanString_of_unterminated {f g : FaultKind} {chars : Word → List Byte} {ws : List Word} {p : Word} {s : State}
    (held : HoldsWords s.mem s.params.kbsrAddr p ws) (toTop : p.toNat + ws.length = 0x10000)
    (accepted : acceptsNext (ws.flatMap chars).length s.output.accepts = true) :
    scanString f g chars (wordsToTop p) p s = .raised (s.wrote (ws.flatMap chars) (ws.flatMap chars).length) g := by
  have fuel : wordsToTop p = ws.length + 0 := by rw [wordsToTop]; omega
  rw [fuel, scanString_of_holdsWords 0 ws p s held accepted]; rfl

/-! ## The two routines -/

/-- The two rows of string routines: the instruction, the routine its faults name, and the bytes it writes for a word. -/
abbrev IsStringRow (i : Instr) (r : Routine) (chars : Word → List Byte) : Prop :=
  (i = .puts ∧ r = .puts ∧ chars = lowByteOnly) ∨ (i = .putsp ∧ r = .putsp ∧ chars = lowThenHigh)

theorem isStringRow_puts : IsStringRow .puts .puts lowByteOnly := .inl ⟨rfl, rfl, rfl⟩

theorem isStringRow_putsp : IsStringRow .putsp .putsp lowThenHigh := .inr ⟨rfl, rfl, rfl⟩

section
variable {i : Instr} {r : Routine} {chars : Word → List Byte} {s : State} {ws : List Word}

/-- Each of them is the scan from R0, over TRAP's link; the bytes the scan takes of a word are R144's and R146's. -/
theorem IsStringRow.exec_eq (row : IsStringRow i r chars) (s : State) :
    exec i s = .next ((scanString (.consoleIoError (s.pc - 1) r .write) (.stringScanWrap (s.pc - 1) (s.reg 0)) chars
      (wordsToTop (s.reg 0)) (s.reg 0) (trapLink s)).finish s) := by
  rw [← arg_trapLink]
  rcases row with ⟨rfl, rfl, rfl⟩ | ⟨rfl, rfl, rfl⟩
  · rfl
  · rfl

/-- A held string with a zero word behind it: the routine completes. -/
theorem IsStringRow.writes (row : IsStringRow i r chars) (held : HoldsWords s.mem s.params.kbsrAddr (s.reg 0) ws)
    (inside : (s.reg 0).toNat + ws.length ≤ 0xFFFF) (zero : s.mem.read (s.reg 0 + BitVec.ofNat 16 ws.length) = 0x0000)
    (plain : s.reg 0 + BitVec.ofNat 16 ws.length ≠ s.params.kbsrAddr)
    (accepted : acceptsNext (ws.flatMap chars).length s.output.accepts = true) :
    ∃ t, exec i s = .next t ∧ OnlyWrites (ws.flatMap chars) s t := by
  rw [row.exec_eq, scanString_of_terminated (by simpa using held) inside (by simpa using zero) (by simpa using plain)
    (by simpa using accepted)]
  exact ⟨_, rfl, onlyWrites_wrote s _ _⟩

/-- A held string up to 0xFFFF: the routine writes it and wraps (R148). -/
theorem IsStringRow.wraps (row : IsStringRow i r chars) (held : HoldsWords s.mem s.params.kbsrAddr (s.reg 0) ws)
    (toTop : (s.reg 0).toNat + ws.length = 0x10000)
    (accepted : acceptsNext (ws.flatMap chars).length s.output.accepts = true) :
    ∃ t, exec i s = .next t ∧ TakesFault (.stringScanWrap (s.pc - 1) (s.reg 0)) s t ∧
      t.out = s.out ++ ws.flatMap chars ∧ SameMemory s t ∧ t.input = s.input := by
  rw [row.exec_eq, scanString_of_unterminated (by simpa using held) toTop (by simpa using accepted)]
  have written := onlyWrites_wrote s (ws.flatMap chars) (ws.flatMap chars).length
  exact ⟨_, rfl, written.takesFault _, written.out, written.mem, written.input⟩

end

/-- PUTS writes one character a word. -/
theorem length_flatMap_lowByteOnly (ws : List Word) : (ws.flatMap lowByteOnly).length = ws.length := by
  simp [List.length_flatMap, lowByteOnly]

/-! ## The statements -/

/-- Settles O44: the scan ends as the loop does, and raising gives back the registers alone. -/
theorem stringRoutinesFollowTheLoop : Obligations.StringRoutinesFollowTheLoop := by
  intro s u e i r chars row loop
  have linked : Scans chars (s.reg 0) (trapLink s) e u := loop
  have scan {f g : FaultKind} : scanString f g chars (wordsToTop (s.reg 0)) (s.reg 0) (trapLink s) = e.flow f g u :=
    scanString_of_scans linked
  have executes := IsStringRow.exec_eq row s
  rw [scan] at executes
  have params := (exec_preserves executes).fixed.2
  refine ⟨_, executes, ?_⟩
  cases e with
  | zeroWord => exact ⟨fun _ => rfl, fun h => absurd rfl h, nofun, nofun⟩
  | wrapped => exact ⟨nofun, fun _ => ⟨rfl, rfl, rfl⟩, fun _ => takesFault_raiseFault params _, nofun⟩
  | writeFailed => exact ⟨nofun, fun _ => ⟨rfl, rfl, rfl⟩, nofun, fun _ => takesFault_raiseFault params _⟩

/-- Settles O41: PUTS is the string routine that writes one character a word. -/
theorem putsWritesTheString : Obligations.PutsWritesTheString := by
  intro s ws held inside zero plain accepted
  rw [← length_flatMap_lowByteOnly ws] at accepted
  obtain ⟨t, executes, out, regs, cond, mem, run, input⟩ := isStringRow_puts.writes held inside zero plain accepted
  exact ⟨t, executes, out, regs, cond, mem, run, input⟩

/-- Settles O42: PUTSP is the string routine that writes a word's low byte, then its high byte. -/
theorem putspWritesThePackedString : Obligations.PutspWritesThePackedString := by
  intro s ws held inside zero plain accepted
  obtain ⟨t, executes, out, regs, cond, mem, run, input⟩ := isStringRow_putsp.writes held inside zero plain accepted
  exact ⟨t, executes, out, regs, cond, mem, run, input⟩

/-- Settles O43, by the wrap both string routines share. -/
theorem stringPastTheTopRaisesScanWrap : Obligations.StringPastTheTopRaisesScanWrap := by
  intro s ws held toTop
  refine ⟨fun accepted => isStringRow_puts.wraps held toTop ?_, isStringRow_putsp.wraps held toTop⟩
  rwa [length_flatMap_lowByteOnly]

end Sys2Proof.Machine
end

section
/-! PROOF. The reserved opcodes RTI and RES (45_reserved.md R160, R161): the word they raise with is the fetched one, and the
raise is all they do. -/

namespace Sys2Proof.Machine

theorem exec_rti (low : BitVec 12) (s : State) :
    exec (.rti low) s = .next (raiseFault s s (.invalidOpcode s.instrAddr (0x8#4 ++ low))) := rfl

theorem exec_res (low : BitVec 12) (s : State) :
    exec (.res low) s = .next (raiseFault s s (.invalidOpcode s.instrAddr (0xD#4 ++ low))) := rfl

/-- An instruction that raises with a word's opcode and low twelve bits raises with the whole word, and from the state right
after the fetch the raise undoes nothing but PC (R176). -/
theorem takesInvalidOpcode_of_exec {i : Instr} {s : State} {w : Word} {op : BitVec 4} (h : bits w 15 12 = op)
    (executes : exec i s = .next (raiseFault s s (.invalidOpcode s.instrAddr (op ++ bits w 11 0)))) :
    ∃ t, exec i s = .next t ∧ TakesFault (.invalidOpcode (s.pc - 1) w) s t ∧ t.mem = s.mem ∧
      t.input = s.input ∧ t.output = s.output := by
  have whole : op ++ bits w 11 0 = w := word_eq_op12 h
  rw [whole] at executes
  exact ⟨_, executes, takesFault_raiseFault rfl _, mem_raiseFault _ _ _, input_raiseFault _ _ _, output_raiseFault _ _ _⟩

/-- Settles O49: the decoder's two reserved rows, and the raise of each with the word it came from. -/
theorem reservedOpcodesRaiseInvalidOpcode : Obligations.ReservedOpcodesRaiseInvalidOpcode := by
  refine ⟨fun w op => decode_op8 op, fun w op => decode_opD op, fun s w op => ?_, fun s w op => ?_⟩
  · exact takesInvalidOpcode_of_exec op (exec_rti (bits w 11 0) s)
  · exact takesInvalidOpcode_of_exec op (exec_res (bits w 11 0) s)

end Sys2Proof.Machine
end

section
/-! PROOF. Faults and the ends of a run (60_exceptions.md R170-R178, R183): what raises, what a fault gives back and keeps, and
the exit status. -/

namespace Sys2Proof

theorem FailureCode.value_ne_zero (c : FailureCode) : c.value ≠ 0 := by
  cases c with
  | positive n => rw [FailureCode.value]; omega
  | negative n => rw [FailureCode.value]; omega

end Sys2Proof

namespace Sys2Proof.Machine

/-! ## The exit status (R178) -/

/-- Settles O11: the status is read off `run`, and a failure code is positive or negative. -/
theorem exitStatusIsZeroOnlyAfterHalt : Obligations.ExitStatusIsZeroOnlyAfterHalt := by
  intro s
  unfold State.exitStatus
  refine ⟨fun running => ?_, fun clean => ?_, fun f fault => ?_, fun e boot => ?_, s.params.exitFailureCode.value_ne_zero⟩
  · rw [running]
  · rw [clean]
  · rw [fault]
  · rw [boot]

/-! ## A blocking read that is never answered (R183, I8) -/

theorem exec_getc_unanswered {s : State} (read : s.input.read = none) : exec .getc s = .fault .inputBlocked := by
  have executes : exec .getc s = trapGetc s := rfl
  rw [executes, trapGetc, read]

/-- IN reaches its read once the prompt is written. -/
theorem exec_in_unanswered {s : State} (read : s.input.read = none)
    (accepted : acceptsNext s.params.inPrompt.length s.output.accepts = true) :
    exec .inChar s = .fault .inputBlocked := by
  have executes : exec .inChar s = trapIn s := rfl
  rw [executes, trapIn, read, inPromptRoutine, params_trapLink, consoleOutStr_wrote _ _ _ (by simpa using accepted)]

/-- Settles O46: a silent host is one that leaves the blocking read without an answer. -/
theorem unansweredReadHasNoSuccessor : Obligations.UnansweredReadHasNoSuccessor := by
  intro s silent
  have read : s.input.read = none := s.input.read_eq_none_iff.mpr silent
  exact ⟨exec_getc_unanswered read, exec_in_unanswered read⟩

/-! ## The first refused write (R174, R177) -/

section
variable {s : State} {n : Nat} (accepted : acceptsNext n s.output.accepts = true)
  (refused : (answersAfter n s.output.accepts).next Config.freeAccept = false)
include accepted refused

theorem exec_halt_refused (short : n < s.params.haltAnnounce.length) :
    exec .halt s = .next (raiseFault s ((trapLink s).wrote (s.params.haltAnnounce.take n) (n + 1))
      (.consoleIoError s.instrAddr .halt .write)) := by
  have executes : exec .halt s = .next ((haltRoutine s (trapLink s)).finish s) := rfl
  rw [executes, haltRoutine, params_trapLink,
    consoleOutStr_refused _ _ _ n short (by simpa using accepted) (by simpa using refused)]
  rfl

/-- A refused prompt raises before IN reads, so whether the host would answer does not matter. -/
theorem exec_in_prompt_refused (short : n < s.params.inPrompt.length) :
    exec .inChar s = .next (raiseFault s ((trapLink s).wrote (s.params.inPrompt.take n) (n + 1))
      (.consoleIoError s.instrAddr .inChar .write)) := by
  have executes : exec .inChar s = trapIn s := rfl
  rw [executes, trapIn, inPromptRoutine, params_trapLink,
    consoleOutStr_refused _ _ _ n short (by simpa using accepted) (by simpa using refused)]
  cases s.input.read with
  | none => rfl
  | some _ => rfl

end

/-- A refused echo raises after the prompt and the read. -/
theorem exec_in_echo_refused {s : State} {b : Byte} {c : ConsoleInput} (read : s.input.read = some (some b, c))
    (accepted : acceptsNext s.params.inPrompt.length s.output.accepts = true)
    (refused : (answersAfter s.params.inPrompt.length s.output.accepts).next Config.freeAccept = false) :
    exec .inChar s = .next (raiseFault s ((s.prompted c).wrote [] 1) (.consoleIoError s.instrAddr .inChar .write)) := by
  have echo : (s.prompted c).output.accepts.next Config.freeAccept = false := by simpa [State.prompted] using refused
  rw [exec_in_prompted read accepted, inRoutine, consoleOut_refused _ _ echo]
  rfl

/-- Settles O48: each text is written up to its refused byte, and the raise keeps what was written and read. -/
theorem refusedWriteRaisesConsoleIoError : Obligations.RefusedWriteRaisesConsoleIoError := by
  intro s n accepted refused
  refine ⟨fun short => ⟨_, exec_halt_refused accepted refused short, ?_⟩,
    fun short => ⟨_, exec_in_prompt_refused accepted refused short, ?_⟩, ?_⟩
  · have written := onlyWrites_wrote s (s.params.haltAnnounce.take n) (n + 1)
    exact ⟨written.takesFault _, written.out, written.mem, written.input⟩
  · have written := onlyWrites_wrote s (s.params.inPrompt.take n) (n + 1)
    exact ⟨written.takesFault _, written.out, written.mem, written.input⟩
  · rintro b c rfl read
    have written := onlyWrites_wrote s s.params.inPrompt s.params.inPrompt.length
    refine ⟨_, exec_in_echo_refused read accepted refused, ?_, ?_, written.mem, rfl⟩
    · exact takesFault_raiseFault (t := (s.prompted c).wrote [] 1) (params_trapLink s) _
    · simp [State.prompted]

/-! ## Which instruction raises which fault (R171) -/

/-- R171's table: the faults of an instruction that executes in state `s`, and the information each records. -/
inductive Raises (s : State) (i : Instr) : FaultKind → Prop where
  | invalidOpcode (reserved : i.isReserved = true) : Raises s i (.invalidOpcode s.instrAddr (encode i))
  | unimplementedTrap (v : Byte) (row : i = .trap v) (outside : v < 0x20 ∨ 0x25 < v) :
      Raises s i (.unimplementedTrap s.instrAddr v)
  | read (r : Routine) (row : (r = .getc ∧ i = .getc) ∨ (r = .inChar ∧ i = .inChar)) :
      Raises s i (.consoleIoError s.instrAddr r .read)
  | write (r : Routine)
      (row : (r = .out ∧ i = .out) ∨ (r = .puts ∧ i = .puts) ∨ (r = .inChar ∧ i = .inChar) ∨ (r = .putsp ∧ i = .putsp) ∨
        (r = .halt ∧ i = .halt)) :
      Raises s i (.consoleIoError s.instrAddr r .write)
  | wrap (row : i = .puts ∨ i = .putsp) : Raises s i (.stringScanWrap s.instrAddr (s.reg 0))

/-- A fault as R171 lists it for `i`, which has left memory as it was unless `i` reads a string. -/
structure ListedFault (i : Instr) (s : State) (f : FaultKind) (t : State) : Prop where
  raises : Raises s i f
  mem : i ≠ .puts → i ≠ .putsp → t.mem = s.mem

/-- A store raises nothing. -/
theorem Raises.isStore_eq_false {s : State} {i : Instr} {f : FaultKind} (h : Raises s i f) : isStore i = false := by
  cases h with
  | invalidOpcode reserved => cases i with
    | st | sti | str => cases reserved
    | _ => rfl
  | unimplementedTrap v row => subst row; rfl
  | read r row => rcases row with ⟨-, rfl⟩ | ⟨-, rfl⟩ <;> rfl
  | write r row => rcases row with ⟨-, rfl⟩ | ⟨-, rfl⟩ | ⟨-, rfl⟩ | ⟨-, rfl⟩ | ⟨-, rfl⟩ <;> rfl
  | wrap row => rcases row with rfl | rfl <;> rfl

theorem outside_of_wellFormed {v : Byte} (wf : (Instr.trap v).wellFormed = true) : v < 0x20 ∨ 0x25 < v := by
  simp only [Instr.wellFormed, isServiceVector, Bool.not_eq_true', Bool.and_eq_false_iff, decide_eq_false_iff_not] at wf
  bv_omega

/-! ### The routines, run from a running state -/

theorem OutputOnly.run {s t : State} (h : OutputOnly s t) : t.run = s.run := by obtain ⟨bs, q, rfl⟩ := h; rfl

theorem OutputOnly.mem {s t : State} (h : OutputOnly s t) : t.mem = s.mem := by obtain ⟨bs, q, rfl⟩ := h; rfl

@[simp] theorem run_loadFrom (dr : Reg) (a : Word) (s : State) : (loadFrom dr a s).run = s.run := s.run_afterRead a

/-- A running state has no fault recorded. -/
theorem not_faulted_of_running {s t : State} {f : FaultKind} (running : s.run = .running) (same : t.run = s.run) :
    t.run ≠ .halted (.fault f) := by
  rw [same, running]; nofun

section
variable {s t : State} {f : FaultKind} (running : s.run = .running) (fault : t.run = .halted (.fault f))
include running fault

theorem listedFault_getc (h : exec .getc s = .next t) : ListedFault .getc s f t := by
  cases answer : s.input.read with
  | none => rw [exec_getc_unanswered answer] at h; cases h
  | some answered =>
    obtain ⟨_ | b, c⟩ := answered
    · rw [exec_getc_end answer] at h
      cases h; cases fault
      exact ⟨.read .getc (by simp), fun _ _ => mem_trapLink s⟩
    · rw [exec_getc_byte answer] at h
      cases h
      exact absurd fault (not_faulted_of_running running (run_trapLink s))

theorem listedFault_out (h : exec .out s = .next t) : ListedFault .out s f t := by
  cases accepted : s.output.accepts.next Config.freeAccept with
  | true =>
    rw [exec_out_accepted accepted] at h
    cases h
    exact absurd fault (not_faulted_of_running running (run_trapLink s))
  | false =>
    rw [exec_out_refused accepted] at h
    cases h; cases fault
    exact ⟨.write .out (by simp), fun _ _ => mem_trapLink s⟩

/-- The scan of PUTS and PUTSP raises for a failed write or for the wrap. -/
theorem raises_of_stringRow {i : Instr} {r : Routine} {chars : Word → List Byte} (row : IsStringRow i r chars)
    (h : exec i s = .next t) : Raises s i f := by
  rw [row.exec_eq] at h
  generalize e : scanString _ _ _ _ _ _ = x at h
  cases x with
  | done u =>
    have frame : ConsoleFrame (trapLink s) u := (consoleFrame_scanString _ _ _ _ _ _).of_done e
    cases h
    exact absurd fault (not_faulted_of_running running (frame.run.trans (run_trapLink s)))
  | raised u g =>
    cases h; cases fault
    rcases scanString_raised e with rfl | rfl
    · rcases row with ⟨rfl, rfl, -⟩ | ⟨rfl, rfl, -⟩
      · exact .write .puts (by simp)
      · exact .write .putsp (by simp)
    · exact .wrap (row.imp And.left And.left)

/-- IN after its prompt raises for the end of input or for its echo; `u` is the state in which the host has answered. -/
theorem listedFault_inRoutine {u : State} (mem : u.mem = s.mem) (run : u.run = s.run) (answer : Option Byte)
    (h : t = (inRoutine s answer u).finish s) : ListedFault .inChar s f t := by
  subst h
  cases answer with
  | none => cases fault; exact ⟨.read .inChar (by simp), fun _ _ => mem⟩
  | some b =>
    rcases consoleOut_cases (ioError s .inChar .write) b u with ⟨-, e⟩ | ⟨-, e⟩
    · rw [inRoutine, e] at fault
      exact absurd fault (not_faulted_of_running running run)
    · rw [inRoutine, e] at fault ⊢
      cases fault
      exact ⟨.write .inChar (by simp), fun _ _ => mem⟩

/-- IN raises for its prompt, whether the host would have answered or not, or goes on to its answer. -/
theorem listedFault_in (h : exec .inChar s = .next t) : ListedFault .inChar s f t := by
  have executes : exec .inChar s = trapIn s := rfl
  rw [executes, trapIn, inPromptRoutine] at h
  rcases consoleOutStr_cases (ioError s .inChar .write) (trapLink s).params.inPrompt (trapLink s) with
    ⟨u, e, written⟩ | ⟨u, e, written⟩
  · rw [e] at h
    split at h
    · cases h
    · next answer input _ =>
      cases h
      exact listedFault_inRoutine (u := u.setInput input) running fault (written.mem.trans (mem_trapLink s))
        (written.run.trans (run_trapLink s)) answer rfl
  · have refused : t = raiseFault s u (ioError s .inChar .write) := by
      rw [e] at h
      split at h
      · cases h; rfl
      · cases h; rfl
    subst refused; cases fault
    exact ⟨.write .inChar (by simp), fun _ _ => written.mem.trans (mem_trapLink s)⟩

omit running in
/-- HALT raises for its announcement only. -/
theorem listedFault_halt (h : exec .halt s = .next t) : ListedFault .halt s f t := by
  cases h
  rcases consoleOutStr_cases (ioError s .halt .write) (trapLink s).params.haltAnnounce (trapLink s) with
    ⟨u, e, -⟩ | ⟨u, e, written⟩
  · rw [haltRoutine, e] at fault; cases fault
  · rw [haltRoutine, e] at fault ⊢
    cases fault
    exact ⟨.write .halt (by simp), fun _ _ => written.mem.trans (mem_trapLink s)⟩

/-! ### Every instruction -/

/-- Beside the reserved opcodes and TRAP's rows no instruction raises anything. -/
theorem listedFault_of_exec {i : Instr} (wf : i.wellFormed = true) (h : exec i s = .next t) : ListedFault i s f t := by
  cases i with
  | add | addi | and | andi | not | lea | jmp | jsr | jsrr | st | str =>
    cases h; exact absurd fault (not_faulted_of_running running rfl)
  | br =>
    cases h
    refine absurd fault (not_faulted_of_running running ?_)
    split <;> rfl
  | ld => rw [exec_ld] at h; cases h; simp [running] at fault
  | ldi => rw [exec_ldi] at h; cases h; simp [running] at fault
  | ldr => rw [exec_ldr] at h; cases h; simp [running] at fault
  | sti => rw [exec_sti] at h; cases h; simp [running] at fault
  | trap v =>
    have executes : exec (.trap v) s = trapUnimplemented v s := execTrap_of_wellFormed wf s
    rw [executes] at h
    cases h; cases fault
    exact ⟨.unimplementedTrap v rfl (outside_of_wellFormed wf), fun _ _ => mem_trapLink s⟩
  | getc => exact listedFault_getc running fault h
  | out => exact listedFault_out running fault h
  | puts => exact ⟨raises_of_stringRow running fault isStringRow_puts h, fun other => absurd rfl other⟩
  | inChar => exact listedFault_in running fault h
  | putsp => exact ⟨raises_of_stringRow running fault isStringRow_putsp h, fun _ other => absurd rfl other⟩
  | halt => exact listedFault_halt fault h
  | rti | res => cases h; cases fault; exact ⟨.invalidOpcode rfl, fun _ _ => rfl⟩

/-- An instruction that ends in a fault ends in the raise of it, which gives the registers back (R176). -/
theorem exists_raiseFault_of_exec {i : Instr} (h : exec i s = .next t) : ∃ u, t = raiseFault s u f := by
  cases exec_ends h with
  | completes frame =>
    rcases frame.run with same | ⟨clean, -⟩
    · exact absurd fault (not_faulted_of_running running same)
    · cases clean.symm.trans fault
  | faults u g => cases fault; exact ⟨u, rfl⟩

end

/-! ## The statements -/

/-- A reserved word is the word of what it decodes to: no bit of it is ignored. -/
theorem encode_decode_of_isReserved {w : Word} (reserved : (decode w).isReserved = true) : encode (decode w) = w := by
  rcases (row_decode w).isReserved_iff.mp reserved with op | op
  · rw [decode_op8 op]; exact word_eq_op12 op
  · rw [decode_opD op]; exact word_eq_op12 op

theorem memoryFrame_fetched (s : State) : MemoryFrame s s.fetched :=
  (consoleFrame_afterRead s s.pc).memoryFrame.trans (.of_mem_eq rfl rfl)

/-- The decoded instruction of a step that ends in a fault raises it as R171 lists it. -/
theorem listedFault_of_step {s t : State} {f : FaultKind} (running : s.run = .running) (h : step s = .next t)
    (fault : t.run = .halted (.fault f)) : ListedFault (decode s.fetchWord) s.fetched f t :=
  listedFault_of_exec ((run_fetched s).trans running) fault (decode_wellFormed _) (exec_of_step h).2

/-- Settles O57: R171's table read fault by fault; the instruction's address is the PC before the fetch. -/
theorem everyFaultHasItsListedCause : Obligations.EveryFaultHasItsListedCause := by
  intro s t f running h fault
  have raises := (listedFault_of_step running h fault).raises
  have address := instrAddr_fetched s
  refine ⟨?_, ?_, ?_, ?_, ?_⟩
  · rintro a w rfl
    cases raises with
    | invalidOpcode reserved =>
      have word := encode_decode_of_isReserved reserved
      exact ⟨address, word, by rwa [word]⟩
  · rintro a v rfl
    cases raises with
    | unimplementedTrap v row outside => exact ⟨address, row, outside⟩
  · rintro a r rfl
    cases raises with
    | read r row => exact ⟨address, row⟩
  · rintro a r rfl
    cases raises with
    | write r row => exact ⟨address, row⟩
  · rintro a p rfl
    cases raises with
    | wrap row => exact ⟨address, reg_fetched s 0, row⟩

/-- Settles O56: the registers are given back by the raise; memory has the frame of an instruction that is no store, and is
kept whole where neither the fetch nor a string reads KBSR; output and input go one way in every step. -/
theorem everyFaultIsPrecise : Obligations.EveryFaultIsPrecise := by
  intro s t f running h fault
  have executes := (exec_of_step h).2
  obtain ⟨raises, mem⟩ := listedFault_of_step running h fault
  obtain ⟨count, -, out, input⟩ := outputOnlyGrowsAndInputIsTakenInOrder s t h
  have frame : MemoryFrame s t := (memoryFrame_fetched s).trans (exec_memoryFrame raises.isStore_eq_false executes)
  obtain ⟨u, raised⟩ := exists_raiseFault_of_exec ((run_fetched s).trans running) fault executes
  subst raised
  refine ⟨fun q _ => reg_fetched s q, instrAddr_fetched s, cond_fetched s, count, frame.mem, ?_, out, input⟩
  intro plain noPuts noPutsp a
  rw [mem noPuts noPutsp, fetched_plain plain, State.mem_setPc]

end Sys2Proof.Machine
end

section
/-! PROOF. Reset, and loading the program images (70_reset_and_hazards.md R190-R196). -/

namespace Sys2Proof.Machine

/-! ## Big-endian words (R191) -/

/-- R191: `b0 * 256 + b1`. -/
theorem toNat_wordOfBytes (b0 b1 : Byte) : (wordOfBytes b0 b1).toNat = b0.toNat * 256 + b1.toNat := by
  have joined : (wordOfBytes b0 b1).toNat = b0.toNat <<< 8 ||| b1.toNat := BitVec.toNat_append b0 b1
  rw [joined, ← Nat.shiftLeft_add_eq_or_of_lt b1.isLt, Nat.shiftLeft_eq]

/-- A word's high and low byte, read back in that order. -/
theorem wordOfBytes_bits (w : Word) : wordOfBytes (bits w 15 8) (bits w 7 0) = w :=
  (field_append_field w 0 8 8).trans (field_all w)

/-! ## The words of one image (R191, R193) -/

theorem loadWords_of_length_le_one (m : Memory) (a : Nat) {odd : List Byte} (short : odd.length ≤ 1) :
    loadWords m a odd = m := by
  match odd, short with
  | [], _ => rfl
  | [_], _ => rfl

/-- The first word of an image is stored at the load address, unless that lies past 0xFFFF. -/
theorem loadWords_imageBytes_cons (m : Memory) (a : Nat) (w : Word) (ws : List Word) (odd : List Byte) :
    loadWords m a (imageBytes (w :: ws) ++ odd) =
      if a < 0x10000 then loadWords (m.write (BitVec.ofNat 16 a) w) (a + 1) (imageBytes ws ++ odd) else m := by
  conv_rhs => rw [← wordOfBytes_bits w]
  rfl

theorem loadWords_wf {m : Memory} (wf : m.wf = true) (a : Nat) (bs : List Byte) : (loadWords m a bs).wf = true := by
  fun_induction loadWords m a bs with
  | case1 m a b0 b1 rest inSpace ih => exact ih (Memory.write_wf wf _ _)
  | case2 | case3 | case4 => exact wf

/-- What an address holds after a load from `a` on: the image's word for it, if there is one, else what it held before. -/
theorem read_loadWords_imageBytes {odd : List Byte} (short : odd.length ≤ 1) (b : Word) (ws : List Word) :
    ∀ {m : Memory} (a : Nat), m.wf = true → (loadWords m a (imageBytes ws ++ odd)).read b =
      if b.toNat < a then m.read b else ws[b.toNat - a]?.getD (m.read b) := by
  induction ws with
  | nil =>
    intro m a _
    have nothing : loadWords m a (imageBytes [] ++ odd) = m := loadWords_of_length_le_one m a short
    simp [nothing]
  | cons w ws ih =>
    intro m a wf
    rw [loadWords_imageBytes_cons]
    by_cases inSpace : a < 0x10000
    · have address : (BitVec.ofNat 16 a).toNat = a := Nat.mod_eq_of_lt inSpace
      rw [if_pos inSpace, ih (a + 1) (Memory.write_wf wf _ _), Memory.read_write wf]
      rcases Nat.lt_trichotomy b.toNat a with below | here | above
      · have other : b ≠ BitVec.ofNat 16 a := by rintro rfl; omega
        rw [if_pos (by omega), if_neg other, if_pos below]
      · have same : b = BitVec.ofNat 16 a := BitVec.eq_of_toNat_eq (here.trans address.symm)
        rw [if_pos (by omega), if_pos same, if_neg (by omega)]
        simp [here]
      · have other : b ≠ BitVec.ofNat 16 a := by rintro rfl; omega
        have later : b.toNat - a = (b.toNat - (a + 1)) + 1 := by omega
        rw [if_neg (by omega), if_neg other, if_neg (by omega), later, List.getElem?_cons_succ]
    · rw [if_neg inSpace, if_pos (by omega)]

/-- Settles O8: the address read is the origin plus an index into the image's words, or has no such index. -/
theorem imageWordsLandFromTheOrigin : Obligations.ImageWordsLandFromTheOrigin := by
  intro m b0 b1 ws odd wf short
  have read (a : Word) := read_loadWords_imageBytes short a ws (wordOfBytes b0 b1).toNat wf
  simp only [toNat_wordOfBytes] at read
  refine ⟨_, rfl, loadWords_wf wf _ _, fun a k h atOffset => ?_, fun a outside => ?_⟩
  · have index : a.toNat - (b0.toNat * 256 + b1.toNat) = k := by omega
    rw [toNat_wordOfBytes, read, if_neg (by omega), index, List.getElem?_eq_getElem h, Option.getD_some]
  · rw [toNat_wordOfBytes, read]
    rcases outside with before | after
    · rw [if_pos before]
    · rw [if_neg (by omega), List.getElem?_eq_none (by omega), Option.getD_none]

/-! ## The images in order (R192, R194) -/

theorem loadImage_wf {m m' : Memory} {i : ImageSource} (loads : loadImage m i = .ok m') (wf : m.wf = true) :
    m'.wf = true := by
  match i, loads with
  | .bytes (_ :: _ :: rest), rfl => exact loadWords_wf wf _ rest

theorem loadImages_cons_ok {s : State} {i : ImageSource} {m : Memory} (loads : loadImage s.mem i = .ok m)
    (rest : List ImageSource) : loadImages s (i :: rest) = loadImages (s.setMem m) rest := by
  rw [loadImages, loads]

theorem loadImages_cons_error {s : State} {i : ImageSource} {e : LoadError} (fails : loadImage s.mem i = .error e)
    (rest : List ImageSource) : loadImages s (i :: rest) = s.setHalted (.bootFailure e) := by
  rw [loadImages, fails]

/-- Loading images changes memory and the run state only. -/
theorem loadImages_shape (images : List ImageSource) (s : State) :
    ∃ m r, loadImages s images = { s with mem := m, run := r } ∧ (s.mem.wf = true → m.wf = true) := by
  induction images generalizing s with
  | nil => exact ⟨s.mem, s.run, rfl, id⟩
  | cons i rest ih =>
    cases load : loadImage s.mem i with
    | ok m =>
      obtain ⟨m', r, shape, wf⟩ := ih (s.setMem m)
      exact ⟨m', r, (loadImages_cons_ok load rest).trans shape, fun h => wf (loadImage_wf load h)⟩
    | error e => exact ⟨s.mem, _, loadImages_cons_error load rest, id⟩

/-- If no image of the first list fails, a longer list goes on from the state the first leaves. -/
theorem loadImages_append {first : List ImageSource} (second : List ImageSource) {s : State}
    (loaded : (loadImages s first).run = .running) :
    loadImages s (first ++ second) = loadImages (loadImages s first) second := by
  induction first generalizing s with
  | nil => rfl
  | cons i rest ih =>
    rw [List.cons_append]
    cases load : loadImage s.mem i with
    | ok m =>
      rw [loadImages_cons_ok load] at loaded ⊢
      rw [loadImages_cons_ok load, ih loaded]
    | error e => rw [loadImages_cons_error load] at loaded; cases loaded

/-- Settles O10: boot is reset with another memory and run state, and reset meets the invariant. -/
theorem bootSetsMemoryOnly : Obligations.BootSetsMemoryOnly := by
  refine ⟨fun images => ?_, fun first second loaded => loadImages_append second loaded⟩
  obtain ⟨m, r, shape, wf⟩ := loadImages_shape images State.reset
  obtain ⟨memWf, condLegal, countZero, keyboardDistinct⟩ := resetSatisfiesTheInvariant
  rw [State.boot, shape]
  exact ⟨⟨wf memWf, condLegal, countZero, keyboardDistinct⟩, rfl, rfl, rfl⟩

/-- Settles O9: the loader's answers, and the halted state in which the first of them ends the boot. -/
theorem failingImageEndsTheBoot : Obligations.FailingImageEndsTheBoot := by
  refine ⟨fun m => rfl, fun m bs short => ?_, fun s i rest e fails => ?_⟩
  · match bs, short with
    | [], _ => rfl
    | [_], _ => rfl
  · rw [loadImages_cons_error fails]
    exact ⟨rfl, rfl, rfl, haltedEngineTakesNoStep _ _ rfl⟩

/-! ## Reset (R190) -/

theorem reg_reset (q : Reg) : State.reset.reg q = 0x0000 := Vector.getElem_replicate q.isLt

/-- Settles O6: the registers are replicated zeros, no word of memory is listed, and the rest is read off the state. -/
theorem resetLeavesTheSpecifiedState : Obligations.ResetLeavesTheSpecifiedState :=
  ⟨reg_reset, rfl, rfl, rfl, rfl, fun _ => rfl, rfl⟩

end Sys2Proof.Machine
end
